-- ==== Sys2Proof/Word.lean ====
section
/-! DEFINITION. The word type of the Intcode Machine: the content of a memory cell, an operand, an input value, an
output value (00_scope.md R5). -/

namespace Sys2Proof

/-- A `Word` is a signed integer with no width: nothing wraps, saturates or overflows (R5, R68; decision D1,
notes/assumptions/7.md). The other files write the type out as `Int`, so that the arithmetic procedures see it; where
the spec says `Word`, they say `Int`. -/
abbrev Word := Int

end Sys2Proof
end

