-- ==== Sys2Proof/Syntax.lean ====
section
/-! DEFINITION. The instructions of INTCODE-5/2 as data: one constructor of `Instr` for each row of
spec/opcode_table.json, its parameters as they stand in memory (30_encoding.md R42, R45). -/

namespace Sys2Proof

/-- The two addressing modes (00_scope.md R2): digit 0 is position, digit 1 is immediate. -/
inductive Mode where
  | position
  | immediate
deriving DecidableEq, Repr

/-- The role of a parameter, fixed by the opcode (30_encoding.md R45). -/
inductive Role where
  | rd
  | wr
deriving DecidableEq, Repr

/-- The recognized opcodes (30_encoding.md R45); their numbers are `Opcode.number`. -/
inductive Opcode where
  | add
  | mul
  | inp
  | out
  | hlt
deriving DecidableEq, Repr

/-- A read parameter: its mode and the raw value of its cell (30_encoding.md R52). -/
structure ReadParam where
  mode : Mode
  raw  : Int
deriving DecidableEq, Repr

/-- A write target: its mode DIGIT, which the decoder passes on unchecked (30_encoding.md R50), and the raw value of
its cell. -/
structure WriteParam where
  digit : Nat
  raw   : Int
deriving DecidableEq, Repr

/-- What `Decode` makes of an instruction word: the opcode and the mode of each parameter the opcode requires
(30_encoding.md R56). -/
inductive Head where
  | add (a b : Mode) (c : Nat)
  | mul (a b : Mode) (c : Nat)
  | inp (c : Nat)
  | out (a : Mode)
  | hlt
deriving DecidableEq, Repr

/-- An instruction: the decoded word and its raw parameters. -/
inductive Instr where
  /-- ADD a, b, c (41_arithmetic.md R66). -/
  | add (a b : ReadParam) (c : WriteParam)
  /-- MUL a, b, c (41_arithmetic.md R67). -/
  | mul (a b : ReadParam) (c : WriteParam)
  /-- IN c (42_io.md R70). -/
  | inp (c : WriteParam)
  /-- OUT a (42_io.md R71). -/
  | out (a : ReadParam)
  /-- HLT (43_halt.md R74). -/
  | hlt
deriving DecidableEq, Repr

/-- The opcode of an instruction. -/
def Instr.opcode : Instr → Opcode
  | .add _ _ _ => .add
  | .mul _ _ _ => .mul
  | .inp _ => .inp
  | .out _ => .out
  | .hlt => .hlt

/-- The opcode of a decoded word. -/
def Head.opcode : Head → Opcode
  | .add _ _ _ => .add
  | .mul _ _ _ => .mul
  | .inp _ => .inp
  | .out _ => .out
  | .hlt => .hlt

/-- The decoded word of an instruction: its parameters forgotten. -/
def Instr.head : Instr → Head
  | .add a b c => .add a.mode b.mode c.digit
  | .mul a b c => .mul a.mode b.mode c.digit
  | .inp c => .inp c.digit
  | .out a => .out a.mode
  | .hlt => .hlt

end Sys2Proof
end

