-- ==== Sys2Proof/WellFormed.lean ====
section
/-! DEFINITION. Which terms of `Instr` some instruction word stands for. A read mode and a parameter's cell are right by
their types; the one thing to check is that the mode of a write target is a decimal digit (30_encoding.md R43). -/

namespace Sys2Proof

/-- The mode of a write target is one decimal digit of the instruction word (R43). -/
def WriteParam.wf (c : WriteParam) : Bool := decide (c.digit < 10)

/-- Well-formed instructions: those an instruction word and its parameter cells can spell. -/
def Instr.wf : Instr → Bool
  | .add _ _ c => c.wf
  | .mul _ _ c => c.wf
  | .inp c => c.wf
  | .out _ => true
  | .hlt => true

end Sys2Proof
end

