-- ==== Sys2Proof/Decode.lean ====
section
/-! DEFINITION. The instruction decoder (30_encoding.md R42 to R56), total on every word and every list of cells,
rejecting by name; after it the encoder, written from the same table, and the assembler notation of R54. The encoding
is by decimal digits of an unbounded integer: there is no bit layout (R6, R43). -/

namespace Sys2Proof

/-! ## The dispatcher's table (R45) -/

/-- The opcode field's value for each opcode (R45). -/
def Opcode.number : Opcode → Nat
  | .add => 1
  | .mul => 2
  | .inp => 3
  | .out => 4
  | .hlt => 99

/-- The opcode a value of the opcode field stands for; the set is closed (R45, R48). -/
def Opcode.ofNumber : Nat → Option Opcode
  | 1 => some .add
  | 2 => some .mul
  | 3 => some .inp
  | 4 => some .out
  | 99 => some .hlt
  | _ => none

/-- The roles of parameters 1..n in order (R45, ROLES of R56). -/
def Opcode.roles : Opcode → List Role
  | .add => [.rd, .rd, .wr]
  | .mul => [.rd, .rd, .wr]
  | .inp => [.wr]
  | .out => [.rd]
  | .hlt => []

/-- The parameter count `n` (R45, NPARAMS of R56). -/
def Opcode.nparams (op : Opcode) : Nat := op.roles.length

/-- The length in cells, which is the pointer advance: `L = n + 1` (R42, R45). -/
def Opcode.length (op : Opcode) : Nat := op.nparams + 1

/-- The length of an instruction depends on its opcode alone (R53). -/
def Instr.length (i : Instr) : Nat := i.opcode.length

/-! ## Decimal fields of the instruction word (R43) -/

/-- `digit(w, k) = (w div 10^k) mod 10` (R6). A digit the numeral does not have is 0 (R44). -/
def digit (w k : Nat) : Nat := w / 10 ^ k % 10

/-- The opcode field: `w mod 100` (R43). -/
def opcodeField (w : Nat) : Nat := w % 100

/-- The mode digit of parameter `k`, 1-based: `digit(w, k + 1)` (R43). -/
def modeDigit (w k : Nat) : Nat := digit w (k + 1)

/-- The addressing mode a digit names; 2 to 9 name none (R49). -/
def Mode.ofDigit : Nat → Option Mode
  | 0 => some .position
  | 1 => some .immediate
  | _ => none

/-- The digit of an addressing mode (R43). -/
def Mode.toDigit : Mode → Nat
  | .position => 0
  | .immediate => 1

/-! ## The decoder -/

/-- Why a list of cells is no instruction. The first three are the three cases of `DecodeError` (60_exceptions.md
R77); the last belongs to a list too short for its instruction, which in the machine is a parameter fetch out of
bounds (40_execution_loop.md R58, stage C). -/
inductive DecodeReject where
  /-- The word is negative (R47, decision D3). -/
  | negativeWord
  /-- The opcode field is not in the recognized set (R48). -/
  | unknownOpcode
  /-- The mode digit of a read parameter is 2 to 9 (R49, decision D4). -/
  | illegalReadMode
  /-- The list ends before the instruction's last cell. -/
  | truncated
deriving DecidableEq, Repr

/-- The mode list for a recognized opcode, from the mode digits the opcode requires: a read mode must be 0 or 1 (R49), a
write mode is not checked here (R50), further digits are not looked at (R51). -/
def headOf (op : Opcode) (w : Nat) : Except DecodeReject Head :=
  match op with
  | .add =>
    match Mode.ofDigit (modeDigit w 1), Mode.ofDigit (modeDigit w 2) with
    | some a, some b => .ok (.add a b (modeDigit w 3))
    | _, _ => .error .illegalReadMode
  | .mul =>
    match Mode.ofDigit (modeDigit w 1), Mode.ofDigit (modeDigit w 2) with
    | some a, some b => .ok (.mul a b (modeDigit w 3))
    | _, _ => .error .illegalReadMode
  | .inp => .ok (.inp (modeDigit w 1))
  | .out =>
    match Mode.ofDigit (modeDigit w 1) with
    | some a => .ok (.out a)
    | none => .error .illegalReadMode
  | .hlt => .ok .hlt

/-- `Decode(w)` of R56: a total function of one word. -/
def decodeWord (w : Int) : Except DecodeReject Head :=
  if w < 0 then .error .negativeWord
  else
    match Opcode.ofNumber (opcodeField w.toNat) with
    | none => .error .unknownOpcode
    | some op => headOf op w.toNat

/-- Parameter assembly: parameter `k` is the cell `k` after the word, taken whole (R42, R52). Answers the instruction
and the cells after it. -/
def assemble (h : Head) (cells : List Int) : Except DecodeReject (Instr × List Int) :=
  match h, cells with
  | .add a b c, p1 :: p2 :: p3 :: rest => .ok (.add ⟨a, p1⟩ ⟨b, p2⟩ ⟨c, p3⟩, rest)
  | .mul a b c, p1 :: p2 :: p3 :: rest => .ok (.mul ⟨a, p1⟩ ⟨b, p2⟩ ⟨c, p3⟩, rest)
  | .inp c, p1 :: rest => .ok (.inp ⟨c, p1⟩, rest)
  | .out a, p1 :: rest => .ok (.out ⟨a, p1⟩, rest)
  | .hlt, rest => .ok (.hlt, rest)
  | _, _ => .error .truncated

/-- The instruction at the front of a list of cells, with the cells after it. -/
def decode : List Int → Except DecodeReject (Instr × List Int)
  | [] => .error .truncated
  | w :: rest =>
    match decodeWord w with
    | .error e => .error e
    | .ok h => assemble h rest

/-! ## The encoder -/

/-- The canonical (surplus-free) instruction word of a decoded word (R43, R46). -/
def Head.word : Head → Int
  | .add a b c => (Opcode.add.number + 100 * a.toDigit + 1000 * b.toDigit + 10000 * c : Nat)
  | .mul a b c => (Opcode.mul.number + 100 * a.toDigit + 1000 * b.toDigit + 10000 * c : Nat)
  | .inp c => (Opcode.inp.number + 100 * c : Nat)
  | .out a => (Opcode.out.number + 100 * a.toDigit : Nat)
  | .hlt => (Opcode.hlt.number : Nat)

/-- The raw parameters of an instruction, in declaration order (R42). -/
def Instr.params : Instr → List Int
  | .add a b c => [a.raw, b.raw, c.raw]
  | .mul a b c => [a.raw, b.raw, c.raw]
  | .inp c => [c.raw]
  | .out a => [a.raw]
  | .hlt => []

/-- The cells of an instruction: its canonical word, then its parameters. -/
def encode (i : Instr) : List Int := i.head.word :: i.params

/-! ## The assembler notation (R54) -/

/-- `[n]` as a read operand. -/
def ReadParam.pos (n : Int) : ReadParam := ⟨.position, n⟩

/-- `#n` as a read operand. -/
def ReadParam.imm (n : Int) : ReadParam := ⟨.immediate, n⟩

/-- `[n]` as a write target: always mode digit 0. -/
def WriteParam.pos (n : Int) : WriteParam := ⟨0, n⟩

/-- A line of a listing: an instruction or the directive `DATA v1, v2, ...` (R54). -/
inductive AsmLine where
  | instr (i : Instr)
  | data (cells : List Int)
deriving DecidableEq, Repr

/-- The cells of a listing, in order (R54). -/
def assembleLines : List AsmLine → List Int
  | [] => []
  | .instr i :: rest => encode i ++ assembleLines rest
  | .data cells :: rest => cells ++ assembleLines rest

/-! ## The host's question about one opcode-table row -/

/-- The cells the host's word stands for: the row's number as ONE instruction word (a cell is a whole integer, R27, so the
table's bits are the binary numeral of the cell), then operand cells of zeros, as many as the longest instruction
takes (notes/assumptions/5.md). -/
def tableWordCells (w : Nat) : List Int := [(w : Int), 0, 0, 0]

/-- The instruction the decoder reads from an instruction word given as a number. A cell has no width, so the bit
count decides nothing (notes/assumptions/5.md). -/
def decodeTableWord (_nbits w : Nat) : Option Instr :=
  match decode (tableWordCells w) with
  | .ok (i, _) => some i
  | .error _ => none

end Sys2Proof
end

