-- ==== Sys2Proof/Config.lean ====
section
/-! DEFINITION. What is fixed for the machine. The two parameters the spec leaves OPEN, the memory length and the
image (00_scope.md R5), are not constants: the host gives them at LOAD. The spec leaves no value undefined
(10_state.md R21, 93_implementation_defined.md), so there is no free value here. -/

namespace Sys2Proof

/-- The reset value of the instruction pointer: execution starts at address 0 (20_memory.md R30, 10_state.md R21). -/
def Config.entryPoint : Nat := 0

/-- The largest parameter count of any instruction, MAXPARAMS (00_scope.md R5). -/
def Config.maxParams : Nat := 3

/-- What an address below the memory length reads as when the canonical list of cells does not name it.
A representation only: LOAD gives every cell its value (notes/assumptions/3.md). -/
def Config.unlistedCell : Int := 0

end Sys2Proof
end

