-- ==== Sys2Proof/Machine/State.lean ====
section
/-! DEFINITION. The whole state of one machine instance (10_state.md R10), the reasons a step can stop, and the state
after reset. -/

namespace Sys2Proof.Machine

/-- The memory `M` of 10_state.md R15: `size` is its length `N`; `cells` lists (address, content) pairs in one
canonical form (`Memory.wf`): addresses strictly rising and below `size`, no cell equal to what an unlisted address reads as
(notes/assumptions/3.md). -/
structure Memory where
  size  : Nat
  cells : List (Nat × Int)
deriving DecidableEq, Repr

/-- The four fault kinds a step can raise (60_exceptions.md R76). -/
inductive FaultKind where
  /-- Stage B; information: the instruction word (R77). -/
  | decodeError
  /-- Stages A, C and D; information: the offending address (R78). -/
  | outOfBounds
  /-- Stage D; information: the parameter's index, 1 or 3 (R79). -/
  | invalidWriteMode
  /-- Stage E; no information (R80). -/
  | inputExhausted
deriving DecidableEq, Repr

/-- What `raise K(info)` carries (00_scope.md R7). -/
structure Raised where
  kind : FaultKind
  info : Option Int
deriving DecidableEq, Repr

/-- The architectural state, 10_state.md R10: "exactly the following record, and nothing else". -/
structure State where
  /-- `M` and `N` (R10, R15). -/
  mem       : Memory
  /-- `ip`, the instruction pointer (R12). -/
  ip        : Nat
  /-- `inq`, the input queue, head first (R16). -/
  inq       : List Int
  /-- `outlog`, the output log, oldest first: (position, value) (R17). -/
  outlog    : List (Nat × Int)
  /-- `halted` (R14). -/
  halted    : Bool
  /-- `fault`; `none` is the spec's None (R14). -/
  fault     : Option FaultKind
  /-- `fault_info` (R14). -/
  faultInfo : Option Int
deriving DecidableEq, Repr

/-- Why no step is taken in a terminal state (10_state.md R20). A fault an instruction RAISES is not here: its entry is
a next state (60_exceptions.md R84, notes/assumptions/4.md). -/
inductive Fault where
  /-- Raised by `step` in a state with `halted = true`: the status AlreadyHalted (60_exceptions.md R81). Safe: nothing
  is executed, as the spec says. -/
  | alreadyHalted
  /-- Raised by `step` in a state whose fault register holds `k`: the status Fault(k) again (60_exceptions.md R85).
  Safe: nothing is executed, as the spec says. -/
  | alreadyFaulted (k : FaultKind)
deriving DecidableEq, Repr

/-- Why an instruction has no meaning in the model. -/
inductive Refusal where
  /-- Raised by `exec` for an instruction not modelled yet; no arm does. Safe. -/
  | notModelled (mnemonic : String)
deriving DecidableEq, Repr

/-- The state after `LOAD([])`: every component at the reset value of 10_state.md R21, with the empty image for the
image the spec leaves open (notes/assumptions/1.md). `State.load` is the reset for any image. -/
def State.reset : State where
  mem       := { size := 0, cells := [] }
  ip        := Config.entryPoint
  inq       := []
  outlog    := []
  halted    := false
  fault     := none
  faultInfo := none

end Sys2Proof.Machine
end

