-- ==== Sys2Proof/Machine/Flags.lean ====
section
/-! DEFINITION. The machine has no flags and no condition codes (10_state.md R13). What stands in their place are the
comparators of 41_arithmetic.md R69: each only selects between continuing and raising a fault, and none is
an architectural result. The comparators on the instruction word are in Decode.lean. -/

namespace Sys2Proof.Machine

/-- The bounds check `0 <= a < N` (20_memory.md R24, R26): no wraparound, no negative indexing. -/
abbrev Memory.InBounds (m : Memory) (a : Int) : Prop := 0 ≤ a ∧ a < (m.size : Int)

/-- The mode digit of a write target denotes an address: it is 0 (20_memory.md R34). -/
abbrev DirectDigit (d : Nat) : Prop := d = 0

/-- Neither halted nor faulted: the entry check of a step (40_execution_loop.md R58, R62). -/
abbrev State.Running (s : State) : Prop := s.halted = false ∧ s.fault = none

/-- 10_state.md R20: halted or faulted; no step is taken. -/
abbrev State.Terminal (s : State) : Prop := s.halted = true ∨ s.fault ≠ none

end Sys2Proof.Machine
end

