-- ==== Sys2Proof/Machine/Ops.lean ====
section
/-! DEFINITION. The named operations over memory and the other components of the state: reading and writing one cell
(20_memory.md R24, R25), raising a fault (60_exceptions.md R84), the pieces of the commit stage (40_execution_loop.md
R58 F), and the reset command LOAD (70_reset_and_hazards.md R94). There is no return from a fault beside its entry:
no instruction clears the fault register (60_exceptions.md R85); LOAD builds a fresh state. -/

namespace Sys2Proof.Machine

/-! ## Memory -/

/-- The content a list of cells gives an address. -/
def lookupCell : List (Nat × Int) → Nat → Int
  | [], _ => Config.unlistedCell
  | (b, v) :: rest, a => if b = a then v else lookupCell rest a

/-- Put a cell at its place in a list of rising addresses that does not name it. -/
def insertCell (a : Nat) (v : Int) : List (Nat × Int) → List (Nat × Int)
  | [] => [(a, v)]
  | (b, u) :: rest => if a < b then (a, v) :: (b, u) :: rest else (b, u) :: insertCell a v rest

/-- A list of cells without an address. -/
def eraseCell (a : Nat) (cells : List (Nat × Int)) : List (Nat × Int) :=
  cells.filter fun c => c.1 ≠ a

/-- `M[a]` (00_scope.md R7), for an address already checked. -/
def Memory.get (m : Memory) (a : Nat) : Int := lookupCell m.cells a

/-- `M[a] <- v`, every other cell and `N` unchanged (20_memory.md R25). It keeps the canonical form, and it never extends
memory: an address at or beyond `N` changes nothing. -/
def Memory.set (m : Memory) (a : Nat) (v : Int) : Memory :=
  if a < m.size then
    { m with cells :=
        if v = Config.unlistedCell then eraseCell a m.cells else insertCell a v (eraseCell a m.cells) }
  else m

/-- Addresses strictly rising from `lo` and below `hi`, no cell equal to what an unlisted address reads as. -/
def cellsWf (hi : Nat) : Nat → List (Nat × Int) → Bool
  | _, [] => true
  | lo, (a, v) :: rest =>
    decide (lo ≤ a) && decide (a < hi) && decide (v ≠ Config.unlistedCell) && cellsWf hi (a + 1) rest

/-- The canonical form of a memory: equal memories are equal data. -/
def Memory.wf (m : Memory) : Bool := cellsWf m.size 0 m.cells

/-- The canonical list of the cells of an image whose first cell has address `base`. -/
def cellsOfList : Nat → List Int → List (Nat × Int)
  | _, [] => []
  | base, v :: rest =>
    if v = Config.unlistedCell then cellsOfList (base + 1) rest else (base, v) :: cellsOfList (base + 1) rest

/-- The memory whose cells from address 0 are the image's (00_scope.md R8, 10_state.md R21). -/
def Memory.ofList (image : List Int) : Memory where
  size  := image.length
  cells := cellsOfList 0 image

/-- At most `n` cells from address `a` on, up to the end of memory. -/
def Memory.cellsFrom (m : Memory) : Nat → Nat → List Int
  | _, 0 => []
  | a, n + 1 => if a < m.size then m.get a :: m.cellsFrom (a + 1) n else []

/-- The memory as the spec writes it, `[c0, c1, ..., c(N-1)]` (00_scope.md R8). -/
def Memory.toList (m : Memory) : List Int := m.cellsFrom 0 m.size

/-- A memory of at least `n` cells. No step and no host command does this (10_state.md R15); only `placeCells` does. -/
def Memory.atLeast (m : Memory) (n : Nat) : Memory := { m with size := max m.size n }

/-! ## Access primitives -/

/-- `MemRead(a, 1)` of 20_memory.md R24, for any word `a`. -/
def memRead (s : State) (a : Int) : Except Raised Int :=
  if s.mem.InBounds a then .ok (s.mem.get a.toNat) else .error ⟨.outOfBounds, some a⟩

/-- `MemWrite(a, 1, v)` of 20_memory.md R25. -/
def memWrite (s : State) (a : Nat) (v : Int) : State := { s with mem := s.mem.set a v }

/-! ## The commit stage -/

/-- `ip <- i + L` (40_execution_loop.md R64). -/
def State.advance (s : State) (n : Nat) : State := { s with ip := s.ip + n }

/-- `inq <- tail(inq)` (42_io.md R70). -/
def State.popInput (s : State) : State := { s with inq := s.inq.tail }

/-- `outlog <- outlog ++ [(i, v)]` with `i` the instruction pointer (42_io.md R71, 10_state.md R17). -/
def State.emit (s : State) (v : Int) : State := { s with outlog := s.outlog ++ [(s.ip, v)] }

/-- `halted <- true` (43_halt.md R74). -/
def State.halt (s : State) : State := { s with halted := true }

/-! ## Taking a fault -/

/-- Fault entry (60_exceptions.md R84): the state at the start of the step with exactly `fault` and `fault_info`
changed. -/
def State.takeFault (s : State) (r : Raised) : State := { s with fault := some r.kind, faultInfo := r.info }

/-- The end of a step that began in `s`: the committed state, or the entry of the fault that was raised, before any
write (40_execution_loop.md R60). -/
def settle (s : State) : Except Raised State → Host.Outcome State Fault Refusal
  | .ok t => .next t
  | .error r => .next (s.takeFault r)

/-- The numeric code of the fault register's value (60_exceptions.md R76, decision D10). -/
def faultCode : Option FaultKind → Nat
  | none => 0
  | some .decodeError => 1
  | some .outOfBounds => 2
  | some .invalidWriteMode => 3
  | some .inputExhausted => 4

/-! ## Reset -/

/-- `LOAD(image)`, the only reset (70_reset_and_hazards.md R94): every component at its reset value of 10_state.md
R21, whatever the state before. -/
def State.load (image : List Int) : State := { State.reset with mem := Memory.ofList image }

end Sys2Proof.Machine
end

