-- ==== Sys2Proof/Machine/Operands.lean ====
section
/-! DEFINITION. The addressing-mode multiplexer (20_memory.md section 5): one resolver shared by every opcode, which
reads memory and writes nothing (R35). -/

namespace Sys2Proof.Machine

/-- `ResolveRead(p, m)`: position mode reads the cell at `p`, one level of indirection (20_memory.md R32); immediate mode
is the raw value itself, with no access and no check (R33). -/
def resolveRead (s : State) (p : ReadParam) : Except Raised Int :=
  match p.mode with
  | .position => memRead s p.raw
  | .immediate => .ok p.raw

/-- `ResolveWrite(p, m, k)`: the raw value is the address to be written, never an indirect one; the mode digit is
checked before the bounds (20_memory.md R34). -/
def resolveWrite (s : State) (p : WriteParam) (k : Nat) : Except Raised Nat :=
  if DirectDigit p.digit then
    if s.mem.InBounds p.raw then .ok p.raw.toNat else .error ⟨.outOfBounds, some p.raw⟩
  else .error ⟨.invalidWriteMode, some (k : Int)⟩

end Sys2Proof.Machine
end

