-- ==== Sys2Proof/Machine/Arithmetic.lean ====
section
/-! DEFINITION. ADD and MUL (41_arithmetic.md): stages D to F of a step whose word has opcode 1 or 2. -/

namespace Sys2Proof.Machine

/-- The ALU's addition: the exact integer sum (41_arithmetic.md R68). -/
def aluAdd (x y : Int) : Int := x + y

/-- The ALU's multiplication: the exact integer product (41_arithmetic.md R68). -/
def aluMul (x y : Int) : Int := x * y

/-- The step of format FRRW: resolve parameters 1, 2, 3 in order, compute, store the result at the write target and advance
by 4 (40_execution_loop.md R58, stages D to F). -/
def execBinary (f : Int → Int → Int) (a b : ReadParam) (c : WriteParam) (s : State) :
    Host.Outcome State Fault Refusal :=
  settle s do
    let va ← resolveRead s a
    let vb ← resolveRead s b
    let t ← resolveWrite s c 3
    pure ((memWrite s t (f va vb)).advance 4)

/-- `ADD a, b, c` (41_arithmetic.md R66). -/
def execAdd (a b : ReadParam) (c : WriteParam) (s : State) : Host.Outcome State Fault Refusal :=
  execBinary aluAdd a b c s

/-- `MUL a, b, c` (41_arithmetic.md R67). -/
def execMul (a b : ReadParam) (c : WriteParam) (s : State) : Host.Outcome State Fault Refusal :=
  execBinary aluMul a b c s

end Sys2Proof.Machine
end

