-- ==== Sys2Proof/Machine/Halt.lean ====
section
/-! DEFINITION. HLT (43_halt.md): stages D to F of a step whose word has opcode 99. -/

namespace Sys2Proof.Machine

/-- `HLT` (43_halt.md R74): sets `halted` and advances by 1; no output, no parameter, no fault. -/
def execHlt (s : State) : Host.Outcome State Fault Refusal :=
  settle s (.ok (s.halt.advance 1))

end Sys2Proof.Machine
end

