-- ==== Sys2Proof/Machine/InputOutput.lean ====
section
/-! DEFINITION. IN and OUT (42_io.md): stages D to F of a step whose word has opcode 3 or 4. -/

namespace Sys2Proof.Machine

/-- The head of the input queue, or `InputExhausted` (42_io.md R70, 60_exceptions.md R80). -/
def headInput (s : State) : Except Raised Int :=
  match s.inq with
  | [] => .error ⟨.inputExhausted, none⟩
  | x :: _ => .ok x

/-- `IN c` (42_io.md R70): the write target is resolved before the queue is tested; the value is taken from the queue only
in the commit that stores it (40_execution_loop.md R60). -/
def execIn (c : WriteParam) (s : State) : Host.Outcome State Fault Refusal :=
  settle s do
    let t ← resolveWrite s c 1
    let x ← headInput s
    pure (((memWrite s t x).popInput).advance 2)

/-- `OUT a` (42_io.md R71): appends the pair of the instruction's own address and the operand. -/
def execOut (a : ReadParam) (s : State) : Host.Outcome State Fault Refusal :=
  settle s do
    let va ← resolveRead s a
    pure ((s.emit va).advance 2)

end Sys2Proof.Machine
end

