-- ==== Sys2Proof/Machine/Dispatch.lean ====
section
/-! DEFINITION. The opcode dispatcher (40_execution_loop.md R61): one arm per instruction, no default arm. -/

namespace Sys2Proof.Machine

/-- Stages D to F of a step (40_execution_loop.md R58) for a fetched and decoded instruction. -/
def exec (i : Instr) (s : State) : Host.Outcome State Fault Refusal :=
  match i with
  | .add a b c => Sys2Proof.Machine.execAdd a b c s
  | .mul a b c => Sys2Proof.Machine.execMul a b c s
  | .inp c => Sys2Proof.Machine.execIn c s
  | .out a => Sys2Proof.Machine.execOut a s
  | .hlt => Sys2Proof.Machine.execHlt s

end Sys2Proof.Machine
end

