-- ==== Sys2Proof/Machine/Fetch.lean ====
section
/-! DEFINITION. Stages A to C of a step (40_execution_loop.md R58): fetching the instruction word, decoding it, fetching the
parameter cells; and how a word is placed where the next fetch finds it. -/

namespace Sys2Proof.Machine

/-- Stage B: each of the decoder's three rejections of a word is `DecodeError(w)` (60_exceptions.md R77). -/
def decodeStage (w : Int) : Except Raised Head :=
  match decodeWord w with
  | .ok h => .ok h
  | .error _ => .error ⟨.decodeError, some w⟩

/-- `p[k] <- MemRead(i + k, 1)` (stage C), `k` counted from 1. -/
def fetchParam (s : State) (k : Nat) : Except Raised Int := memRead s ((s.ip + k : Nat) : Int)

/-- Stage C: the parameter cells in ascending order, as many as the opcode has, each in its place in the instruction
(30_encoding.md R42). -/
def fetchParams (s : State) (h : Head) : Except Raised Instr :=
  match h with
  | .add a b c => do
    let p1 ← fetchParam s 1
    let p2 ← fetchParam s 2
    let p3 ← fetchParam s 3
    pure (.add ⟨a, p1⟩ ⟨b, p2⟩ ⟨c, p3⟩)
  | .mul a b c => do
    let p1 ← fetchParam s 1
    let p2 ← fetchParam s 2
    let p3 ← fetchParam s 3
    pure (.mul ⟨a, p1⟩ ⟨b, p2⟩ ⟨c, p3⟩)
  | .inp c => do
    let p1 ← fetchParam s 1
    pure (.inp ⟨c, p1⟩)
  | .out a => do
    let p1 ← fetchParam s 1
    pure (.out ⟨a, p1⟩)
  | .hlt => pure .hlt

/-- Stages A to C: the instruction at `ip`, or the first fault met on the way. -/
def fetchInstr (s : State) : Except Raised Instr := do
  let w ← memRead s (s.ip : Int)
  let h ← decodeStage w
  fetchParams s h

/-- Store cells at consecutive addresses. -/
def Memory.setAll (m : Memory) : Nat → List Int → Memory
  | _, [] => m
  | a, v :: rest => (m.set a v).setAll (a + 1) rest

/-- The state with the given cells at `ip`, where the next step fetches, able to step: memory is as long as they need, and a
terminal state is made to run again (notes/assumptions/6.md). -/
def placeCells (s : State) (cells : List Int) : State :=
  { s with
    mem       := (s.mem.atLeast (s.ip + cells.length)).setAll s.ip cells
    halted    := false
    fault     := none
    faultInfo := none }

end Sys2Proof.Machine
end

