-- ==== Sys2Proof/Machine/Step.lean ====
section
/-! DEFINITION. One step of the machine (40_execution_loop.md R58). -/

namespace Sys2Proof.Machine

/-- In a terminal state no step is taken (10_state.md R20); the machine stops under the name of what ended the run. In
any other state: fetch and decode (stages A to C), then the instruction's meaning (stages D to F). -/
def step (s : State) : Host.Outcome State Fault Refusal :=
  if s.halted then .fault .alreadyHalted
  else
    match s.fault with
    | some k => .fault (.alreadyFaulted k)
    | none =>
      match fetchInstr s with
      | .error r => settle s (.error r)
      | .ok i => exec i s

/-- `s` with the instruction word `w`, and operand cells of zeros after it, where the next step fetches
(notes/assumptions/5.md, 6.md). -/
def State.withFetchWord (s : State) (_nbits w : Nat) : State := placeCells s (tableWordCells w)

end Sys2Proof.Machine
end

