-- ==== Sys2Proof/Machine/Commands.lean ====
section
/-! DEFINITION. The host interface (70_reset_and_hazards.md section 3): the seven commands and nothing else, each a
function of the whole state (R96). They are not instructions. -/

namespace Sys2Proof.Machine

/-- The status a command returns (R96). -/
inductive Status where
  /-- Done; the machine can step again. -/
  | ok
  /-- The machine executed HLT during this command. -/
  | halted
  /-- A fault kind, raised during this command or already recorded. -/
  | fault (k : FaultKind)
  /-- The machine was halted before this command (60_exceptions.md R81). -/
  | alreadyHalted
deriving DecidableEq, Repr

/-- What STATUS returns (R100). -/
structure StatusReport where
  ip        : Nat
  halted    : Bool
  fault     : Option FaultKind
  faultInfo : Option Int
  size      : Nat
  queued    : Nat
deriving DecidableEq, Repr

/-- The host commands (R96). -/
inductive Command where
  | load (image : List Int)
  | enq (v : Int)
  | step
  | run (inputs : List Int)
  | peek (a : Int)
  | log
  | status
deriving DecidableEq, Repr

/-- What a command gives back to the host. -/
inductive Reply where
  | status (r : Status)
  | cell (v : Int)
  | log (pairs : List (Nat × Int))
  | report (r : StatusReport)
deriving DecidableEq, Repr

/-- The code of `AlreadyHalted`, a status only (60_exceptions.md R76). -/
def alreadyHaltedCode : Nat := 5

/-- `inq <- inq ++ [v]` (R97). -/
def State.enqueue (s : State) (v : Int) : State := { s with inq := s.inq ++ [v] }

/-- All inputs of a RUN, in order (R99). -/
def State.enqueueAll (s : State) (vs : List Int) : State := vs.foldl State.enqueue s

/-- The machine's state after one step, and the same state where no step is taken. -/
def stepState (s : State) : State :=
  match step s with
  | .next t => t
  | .fault _ => s
  | .refused _ => s

/-- At most `n` repetitions of `Step`, none in a terminal state (40_execution_loop.md R62). -/
def runSteps : Nat → State → State
  | 0, s => s
  | n + 1, s => if s.Terminal then s else runSteps n (stepState s)

/-- How many steps a run from `s` can take: `ceil((N - ip) / 2) + 1` (40_execution_loop.md R63;
notes/assumptions/17.md). -/
def runBound (s : State) : Nat := (s.mem.size - s.ip + 1) / 2 + 1

/-- `Run` (40_execution_loop.md R62): repeat `Step` until the state is terminal. -/
def run (s : State) : State := runSteps (runBound s) s

/-- The status of a state a command leaves: the fault first, then halted (R98). -/
def State.statusOf (s : State) : Status :=
  match s.fault with
  | some k => .fault k
  | none => if s.halted then .halted else .ok

/-- The entry check that ENQ, STEP and RUN share (R97 to R99): a halted or faulted machine is left as it is, and the host is
told so. -/
def guarded (s : State) (go : State × Status) : State × Status :=
  if s.halted then (s, .alreadyHalted)
  else
    match s.fault with
    | some k => (s, .fault k)
    | none => go

/-- `ENQ(v)` (R97). -/
def hostEnq (v : Int) (s : State) : State × Status := guarded s (s.enqueue v, .ok)

/-- `STEP` (R98). -/
def hostStep (s : State) : State × Status := guarded s (stepState s, (stepState s).statusOf)

/-- `RUN(inputs)` (R99). It returns `Halted` or a fault: `run` ends in a terminal state (40_execution_loop.md R63). -/
def hostRun (inputs : List Int) (s : State) : State × Status :=
  guarded s (run (s.enqueueAll inputs), (run (s.enqueueAll inputs)).statusOf)

/-- `PEEK(a)` (R100): the cell, or the status Fault(OutOfBounds) to the host; the fault register is not written. -/
def hostPeek (a : Int) (s : State) : Reply :=
  match memRead s a with
  | .ok v => .cell v
  | .error r => .status (.fault r.kind)

/-- `STATUS` (R100). -/
def hostStatus (s : State) : StatusReport where
  ip        := s.ip
  halted    := s.halted
  fault     := s.fault
  faultInfo := s.faultInfo
  size      := s.mem.size
  queued    := s.inq.length

/-- One command given to a machine: the state after it, and what the host gets back (R96). -/
def command (c : Command) (s : State) : State × Reply :=
  match c with
  | .load image => (State.load image, .status .ok)
  | .enq v => ((hostEnq v s).1, .status (hostEnq v s).2)
  | .step => ((hostStep s).1, .status (hostStep s).2)
  | .run inputs => ((hostRun inputs s).1, .status (hostRun inputs s).2)
  | .peek a => (s, hostPeek a s)
  | .log => (s, .log s.outlog)
  | .status => (s, .report (hostStatus s))

end Sys2Proof.Machine
end

