-- ==== Sys2Proof/Safety.lean ====
section
/-! DEFINITION. What counts as a good state, a successful end and a history of the machine, in the terms the statements
use; and the fault priority of 60_exceptions.md R83 written down as the spec's table, apart from the step. -/

namespace Sys2Proof.Machine

/-! ## The end of a run -/

/-- A run ended successfully (70_reset_and_hazards.md R103). Says nothing of what the program computed. -/
def State.Successful (s : State) : Prop := s.halted = true ∧ s.fault = none

/-! ## Operands as a statement names them -/

/-- `v` is the operand of a read parameter (20_memory.md R32, R33). -/
def OperandIs (s : State) (p : ReadParam) (v : Int) : Prop :=
  (p.mode = .immediate ∧ v = p.raw) ∨
  (p.mode = .position ∧ 0 ≤ p.raw ∧ p.raw < (s.mem.size : Int) ∧ v = s.mem.get p.raw.toNat)

/-- `a` is the address a write target names (20_memory.md R34). -/
def TargetIs (s : State) (c : WriteParam) (a : Nat) : Prop :=
  c.digit = 0 ∧ c.raw = (a : Int) ∧ a < s.mem.size

/-- The write target of an instruction that has one: opcodes 1, 2, 3 (10_state.md R15). -/
def storeTarget : Instr → Option WriteParam
  | .add _ _ c => some c
  | .mul _ _ c => some c
  | .inp c => some c
  | .out _ => none
  | .hlt => none

/-- `v` is what an instruction that stores writes at its target (41_arithmetic.md R66, R67, 42_io.md R70). -/
def StoresValue (s : State) (i : Instr) (v : Int) : Prop :=
  match i with
  | .add a b _ => ∃ x y, OperandIs s a x ∧ OperandIs s b y ∧ v = x + y
  | .mul a b _ => ∃ x y, OperandIs s a x ∧ OperandIs s b y ∧ v = x * y
  | .inp _ => s.inq.head? = some v
  | .out _ => False
  | .hlt => False

/-- The place value of the first digit of a word that the opcode does not use (30_encoding.md R51). -/
def surplusBase : Opcode → Nat
  | .add => 100000
  | .mul => 100000
  | .inp => 1000
  | .out => 1000
  | .hlt => 100

/-! ## The invariant (10_state.md R22, 60_exceptions.md R76) -/

/-- What the fault register and the information beside it say of the state they were recorded in (60_exceptions.md R76
to R80, R84). -/
def FaultRecordOk (s : State) : Prop :=
  match s.fault with
  | none => s.faultInfo = none
  | some .decodeError =>
    s.ip < s.mem.size ∧ s.faultInfo = some (s.mem.get s.ip) ∧ ∃ e, decodeWord (s.mem.get s.ip) = .error e
  | some .outOfBounds => ∃ a, s.faultInfo = some a ∧ (a < 0 ∨ (s.mem.size : Int) ≤ a)
  | some .invalidWriteMode => s.faultInfo = some 1 ∨ s.faultInfo = some 3
  | some .inputExhausted => s.faultInfo = none ∧ s.inq = []

/-- What every step and every host command keeps. -/
structure State.Inv (s : State) : Prop where
  /-- The memory is in its canonical form (notes/assumptions/3.md). -/
  memWf     : s.mem.wf = true
  /-- A completed instruction lies in memory whole, so `ip` never passes `N`. -/
  ipInside  : s.ip ≤ s.mem.size
  /-- R22 item 4. -/
  notBoth   : ¬ (s.halted = true ∧ s.fault ≠ none)
  /-- R76. -/
  record    : FaultRecordOk s
  /-- R22 item 6: positions strictly increase. -/
  logRising : List.Pairwise (· < ·) (s.outlog.map Prod.fst)
  /-- R22 item 6: every position was passed, and is an address. -/
  logPassed : ∀ p ∈ s.outlog, p.1 < s.ip

/-! ## The fault priority table (60_exceptions.md R83) -/

/-- `w mod 100` is one of the numbers. -/
def opcodeIn (w : Int) (ops : List Nat) : Bool := decide (0 ≤ w) && ops.contains (w.toNat % 100)

/-- A raw value that is no address. -/
def notAddress (s : State) (p : Int) : Bool := decide (p < 0) || decide ((s.mem.size : Int) ≤ p)

/-- The table of R83, highest priority first: each row's condition with the fault it reports. The conditions are
the table's, read off the cells and the decimal digits of the word; none mentions the decoder or the resolver. -/
def priorityTable (s : State) : List (Bool × Raised) :=
  let w := s.mem.get s.ip
  let p := fun k => s.mem.get (s.ip + k)
  let d := fun k => w.toNat / 10 ^ (k + 1) % 10
  let oob := fun a : Int => (⟨.outOfBounds, some a⟩ : Raised)
  let bad := (⟨.decodeError, some w⟩ : Raised)
  [ (decide (s.mem.size ≤ s.ip), oob s.ip),
    (decide (w < 0), bad),
    (! opcodeIn w [1, 2, 3, 4, 99], bad),
    ((opcodeIn w [1, 2, 4] && decide (1 < d 1)) || (opcodeIn w [1, 2] && decide (1 < d 2)), bad),
    (opcodeIn w [1, 2, 3, 4] && decide (s.mem.size ≤ s.ip + 1), oob (s.ip + 1 : Nat)),
    (opcodeIn w [1, 2] && decide (s.mem.size ≤ s.ip + 2), oob (s.ip + 2 : Nat)),
    (opcodeIn w [1, 2] && decide (s.mem.size ≤ s.ip + 3), oob (s.ip + 3 : Nat)),
    (opcodeIn w [1, 2, 4] && decide (d 1 = 0) && notAddress s (p 1), oob (p 1)),
    (opcodeIn w [3] && decide (d 1 ≠ 0), ⟨.invalidWriteMode, some 1⟩),
    (opcodeIn w [3] && decide (d 1 = 0) && notAddress s (p 1), oob (p 1)),
    (opcodeIn w [1, 2] && decide (d 2 = 0) && notAddress s (p 2), oob (p 2)),
    (opcodeIn w [1, 2] && decide (d 3 ≠ 0), ⟨.invalidWriteMode, some 3⟩),
    (opcodeIn w [1, 2] && decide (d 3 = 0) && notAddress s (p 3), oob (p 3)),
    (opcodeIn w [3] && s.inq.isEmpty, ⟨.inputExhausted, none⟩) ]

/-- The first row of the table whose condition holds. -/
def firstFault (s : State) : Option Raised := ((priorityTable s).find? Prod.fst).map Prod.snd

/-! ## Histories: a machine after LOAD, acted on by ENQ and STEP (RUN is a sequence of these, R99) -/

/-- A host command that moves a history on (70_reset_and_hazards.md R97, R98). -/
inductive Action where
  | enq (v : Int)
  | step
deriving DecidableEq, Repr

/-- The state after one action. -/
def Action.apply (x : Action) (s : State) : State :=
  match x with
  | .enq v => (hostEnq v s).1
  | .step => (hostStep s).1

/-- The state after a history. -/
def applyAll : List Action → State → State
  | [], s => s
  | x :: xs, s => applyAll xs (x.apply s)

/-- The instruction that a step from this state completes, if it completes one (40_execution_loop.md R60). -/
def completedInstr (s : State) : Option Instr :=
  if s.Running then
    match fetchInstr s with
    | .ok i => if (stepState s).fault = none then some i else none
    | .error _ => none
  else none

/-- What a completed IN stored, read back from its target (42_io.md R70). -/
def inputStored (s : State) : List Int :=
  match completedInstr s with
  | some (.inp c) => [(stepState s).mem.get c.raw.toNat]
  | _ => []

/-- The pair a completed OUT stands for: its own address and its operand (42_io.md R71). -/
def pairEmitted (s : State) : List (Nat × Int) :=
  match completedInstr s with
  | some (.out ⟨.position, p⟩) => [(s.ip, s.mem.get p.toNat)]
  | some (.out ⟨.immediate, p⟩) => [(s.ip, p)]
  | _ => []

/-- The length of a completed instruction. -/
def cellsPassed (s : State) : Nat :=
  match completedInstr s with
  | some i => i.length
  | none => 0

/-- What the steps of a history contribute, in order. -/
def gather {α : Type} (f : State → List α) : List Action → State → List α
  | [], _ => []
  | .enq v :: xs, s => gather f xs (Action.apply (.enq v) s)
  | .step :: xs, s => f s ++ gather f xs (Action.apply .step s)

/-- The values a history enqueues: those given to a machine that is neither halted nor faulted (R97). -/
def enqueuedBy : List Action → State → List Int
  | [], _ => []
  | .enq v :: xs, s => (if s.Running then [v] else []) ++ enqueuedBy xs (Action.apply (.enq v) s)
  | .step :: xs, s => enqueuedBy xs (Action.apply .step s)

/-- STEP repeated until its status is not Ok, at most `n` times (R99). -/
def stepUntil : Nat → State → State × Status
  | 0, s => (s, .ok)
  | n + 1, s => if (hostStep s).2 = .ok then stepUntil n (hostStep s).1 else hostStep s

end Sys2Proof.Machine
end

