-- ==== Sys2Proof/Certificates/Slice0/Obligations.lean ====
section
/-! DEFINITION. The statements for the provers, each from a rule of spec/ its docstring names. A statement whose rule rests on
a decision of 92_eei_decisions.md says so; no statement rests on a value this model chose but where its docstring names
the log entry. -/

open Sys2Proof Sys2Proof.Machine

/-! ## Encoding (30_encoding.md) -/

/-- Sections 1, 2 (R42 to R46): decoding the cells of a well-formed instruction gives it back, with every parameter and every
mode digit, and leaves the cells after it. -/
def Obligations.DecodeInvertsEncode : Prop :=
  ∀ (i : Instr) (rest : List Int), i.wf = true → decode (encode i ++ rest) = .ok (i, rest)

/-- The other direction (R43, R45, R51): what decodes is well-formed, its cells are a word and the parameters, and that
word differs from the canonical one in surplus digits only (they are ignored by decision D6, log 8). -/
def Obligations.DecodedCellsAreTheEncoding : Prop :=
  ∀ (cells rest : List Int) (i : Instr), decode cells = .ok (i, rest) →
    i.wf = true ∧ ∃ w : Int, cells = w :: (i.params ++ rest) ∧ 0 ≤ w ∧
      w % (surplusBase i.opcode : Int) = i.head.word

/-- R43, R44: the opcode field is digits 1 and 0 of the word, `mode_k` is digit `k + 1`, and a digit the numeral does not have
is 0. Read modes are given by their digits. -/
def Obligations.FieldsAreDecimalDigits : Prop :=
  ∀ (w : Nat) (h : Head), decodeWord (w : Int) = .ok h →
    w % 100 = h.opcode.number ∧
    (∀ a b c, h = .add a b c ∨ h = .mul a b c →
      a.toDigit = w / 100 % 10 ∧ b.toDigit = w / 1000 % 10 ∧ c = w / 10000 % 10) ∧
    (∀ c, h = .inp c → c = w / 100 % 10) ∧
    (∀ a, h = .out a → a.toDigit = w / 100 % 10)

/-- R48: a non-negative word whose opcode field is not in {1, 2, 3, 4, 99} raises `DecodeError(w)`; every word is one of the five
instructions, by its opcode field, or a fault; and the step that meets such a word does not advance past it. -/
def Obligations.UnrecognizedOpcodeIsDecodeError : Prop :=
  (∀ w : Int, 0 ≤ w → w % 100 ≠ 1 → w % 100 ≠ 2 → w % 100 ≠ 3 → w % 100 ≠ 4 → w % 100 ≠ 99 →
    decodeStage w = .error ⟨.decodeError, some w⟩) ∧
  (∀ w : Int, (∃ h, decodeStage w = .ok h ∧ w % 100 = (h.opcode.number : Int)) ∨ ∃ r, decodeStage w = .error r) ∧
  (∀ s : State, s.Running → s.ip < s.mem.size → 0 ≤ s.mem.get s.ip → s.mem.get s.ip % 100 ≠ 1 →
    s.mem.get s.ip % 100 ≠ 2 → s.mem.get s.ip % 100 ≠ 3 → s.mem.get s.ip % 100 ≠ 4 → s.mem.get s.ip % 100 ≠ 99 →
    ∃ t, Sys2Proof.Machine.step s = .next t ∧ t.fault = some .decodeError ∧ t.ip = s.ip)

/-- R51 (decision D6, log 8): digits above the last mode digit the opcode uses change nothing. -/
def Obligations.SurplusDigitsIgnored : Prop :=
  ∀ (w k : Nat) (op : Opcode), w % 100 = op.number →
    decodeWord ((w + surplusBase op * k : Nat) : Int) = decodeWord (w : Int)

/-- R53, R45: the length of the instruction at `ip` is decided by `w mod 100` alone, in every state, and the same word
decodes the same way in every state. -/
def Obligations.LengthIsDecidedByOpcodeField : Prop :=
  (∀ (s : State) (i : Instr), fetchInstr s = .ok i →
    (s.mem.get s.ip % 100 = 1 ∧ i.length = 4) ∨ (s.mem.get s.ip % 100 = 2 ∧ i.length = 4) ∨
    (s.mem.get s.ip % 100 = 3 ∧ i.length = 2) ∨ (s.mem.get s.ip % 100 = 4 ∧ i.length = 2) ∨
    (s.mem.get s.ip % 100 = 99 ∧ i.length = 1)) ∧
  (∀ (s t : State) (i j : Instr), fetchInstr s = .ok i → fetchInstr t = .ok j →
    (s.mem.get s.ip % 100 = t.mem.get t.ip % 100 → i.length = j.length) ∧
    (s.mem.get s.ip = t.mem.get t.ip → i.head = j.head))

/-- Words written out from R46 and R43 decode to the instructions they stand for (95_test_vectors.md V-D6, V-D9, V-D10, V-D12,
S1). -/
def Obligations.WrittenOutWordsDecode : Prop :=
  decode [101, 7, 8, 9] = .ok (.add ⟨.immediate, 7⟩ ⟨.position, 8⟩ ⟨0, 9⟩, []) ∧
  decode [1002, 7, 8, 9] = .ok (.mul ⟨.position, 7⟩ ⟨.immediate, 8⟩ ⟨0, 9⟩, []) ∧
  decode [20001, 7, 8, 9] = .ok (.add ⟨.position, 7⟩ ⟨.position, 8⟩ ⟨2, 9⟩, []) ∧
  decode [3, 5, 99] = .ok (.inp ⟨0, 5⟩, [99]) ∧
  decode [104, -5] = .ok (.out ⟨.immediate, -5⟩, []) ∧
  decode [99] = .ok (.hlt, [])

/-! ## Memory and addressing (20_memory.md, 10_state.md) -/

/-- R24: `MemRead(a)` for any word `a`: OutOfBounds(a) when `a < 0` or `a >= N`, the cell `M[a]` of the sequence otherwise. -/
def Obligations.MemReadIsBoundsChecked : Prop :=
  ∀ (s : State) (a : Int),
    (a < 0 ∨ (s.mem.size : Int) ≤ a → memRead s a = .error ⟨.outOfBounds, some a⟩) ∧
    (0 ≤ a ∧ a < (s.mem.size : Int) → ∃ v, s.mem.toList[a.toNat]? = some v ∧ memRead s a = .ok v)

/-- R25: `MemWrite(a, v)` replaces exactly cell `a` of the sequence of cells by the whole of `v`, keeps `N` and every other
component, and never extends memory: for an address at or beyond `N` the resolver has raised OutOfBounds and nothing is
written. -/
def Obligations.MemWriteReplacesOneCell : Prop :=
  ∀ (s : State) (a : Nat) (v : Int),
    (a < s.mem.size → (memWrite s a v).mem.toList = s.mem.toList.set a v) ∧
    (s.mem.size ≤ a → memWrite s a v = s ∧ ∀ k, resolveWrite s ⟨0, (a : Int)⟩ k = .error ⟨.outOfBounds, some (a : Int)⟩) ∧
    memWrite s a v = { s with mem := (memWrite s a v).mem } ∧
    (memWrite s a v).mem.size = s.mem.size

/-- Two memories in canonical form with the same sequence of cells are the same data (the form is the model's, log 3). -/
def Obligations.CanonicalMemoriesAreEqual : Prop :=
  ∀ m n : Memory, m.wf = true → n.wf = true → m.toList = n.toList → m = n

/-- R32: a read parameter in position mode is the cell at its raw value, one level of indirection, or OutOfBounds(p); beside
it, in immediate mode, it is the raw value itself, any integer, with no check. -/
def Obligations.PositionModeReadsTheCell : Prop :=
  ∀ (s : State) (p : Int),
    (p < 0 ∨ (s.mem.size : Int) ≤ p → resolveRead s ⟨.position, p⟩ = .error ⟨.outOfBounds, some p⟩) ∧
    (0 ≤ p ∧ p < (s.mem.size : Int) →
      ∃ v, s.mem.toList[p.toNat]? = some v ∧ resolveRead s ⟨.position, p⟩ = .ok v) ∧
    resolveRead s ⟨.immediate, p⟩ = .ok p

/-- R34 (decisions D5, D7): a write target is its raw value as an address; a non-zero mode digit is InvalidWriteMode(k)
whatever the address; only then the bounds count. -/
def Obligations.WriteTargetIsTheRawValue : Prop :=
  ∀ (s : State) (d k : Nat) (p : Int),
    (d ≠ 0 → resolveWrite s ⟨d, p⟩ k = .error ⟨.invalidWriteMode, some (k : Int)⟩) ∧
    (d = 0 → (p < 0 ∨ (s.mem.size : Int) ≤ p) → resolveWrite s ⟨d, p⟩ k = .error ⟨.outOfBounds, some p⟩) ∧
    (d = 0 → 0 ≤ p → p < (s.mem.size : Int) → resolveWrite s ⟨d, p⟩ k = .ok p.toNat)

/-- R15: `N` never changes but by LOAD; only opcodes 1, 2, 3 mutate memory, and each at one address, the raw value of its write
target; ENQ and the inspection commands leave memory alone. -/
def Obligations.OnlyStoresMutateMemory : Prop :=
  (∀ (c : Command) (s : State), (∀ image, c ≠ .load image) → (command c s).1.mem.size = s.mem.size) ∧
  (∀ (s t : State), Sys2Proof.Machine.step s = .next t →
    t.mem.size = s.mem.size ∧
    ∀ x : Nat, t.mem.get x ≠ s.mem.get x →
      ∃ i c, fetchInstr s = .ok i ∧ storeTarget i = some c ∧ c.raw = (x : Int)) ∧
  (∀ (c : Command) (s : State), (∀ image, c ≠ .load image) → c ≠ .step → (∀ inputs, c ≠ .run inputs) →
    (command c s).1.mem = s.mem)

/-! ## The instructions complete, with the effect the spec gives them -/

/-- 41_arithmetic.md section 1 (R66) with R68 (decision D1): ADD with readable operands and a write target in memory stores
the exact sum at the target, advances by 4, and changes nothing else. -/
def Obligations.AddStoresTheSum : Prop :=
  ∀ (a b : ReadParam) (c : WriteParam) (s : State) (x y : Int) (t : Nat),
    OperandIs s a x → OperandIs s b y → TargetIs s c t →
    ∃ u, Sys2Proof.Machine.exec (.add a b c) s = .next u ∧ u.mem.toList = s.mem.toList.set t (x + y) ∧
      u = { s with mem := u.mem, ip := s.ip + 4 }

/-- 41_arithmetic.md section 2 (R67) with R68 (decisions D1, D24): the same for MUL and the exact product. -/
def Obligations.MulStoresTheProduct : Prop :=
  ∀ (a b : ReadParam) (c : WriteParam) (s : State) (x y : Int) (t : Nat),
    OperandIs s a x → OperandIs s b y → TargetIs s c t →
    ∃ u, Sys2Proof.Machine.exec (.mul a b c) s = .next u ∧ u.mem.toList = s.mem.toList.set t (x * y) ∧
      u = { s with mem := u.mem, ip := s.ip + 4 }

/-- 42_io.md section 1 (R70): IN with a write target in memory and a queued value stores the head of the queue at the
target, removes it, advances by 2, and changes nothing else. -/
def Obligations.InStoresTheHeadOfTheQueue : Prop :=
  ∀ (c : WriteParam) (s : State) (x : Int) (rest : List Int) (t : Nat),
    TargetIs s c t → s.inq = x :: rest →
    ∃ u, Sys2Proof.Machine.exec (.inp c) s = .next u ∧ u.mem.toList = s.mem.toList.set t x ∧
      u = { s with mem := u.mem, inq := rest, ip := s.ip + 2 }

/-- 42_io.md section 2 (R71; unbounded log by decision D14): OUT with a readable operand appends the pair of its own address
and the operand, advances by 2, and changes nothing else. -/
def Obligations.OutAppendsItsAddressAndOperand : Prop :=
  ∀ (a : ReadParam) (s : State) (x : Int), OperandIs s a x →
    Sys2Proof.Machine.exec (.out a) s = .next { s with outlog := s.outlog ++ [(s.ip, x)], ip := s.ip + 2 }

/-- 43_halt.md section 1 (R74; the final pointer by C11): HLT sets `halted`, advances by 1, and changes nothing else, in every
state. -/
def Obligations.HltSetsHalted : Prop :=
  ∀ s : State, Sys2Proof.Machine.exec .hlt s = .next { s with halted := true, ip := s.ip + 1 }

/-! ## Frames -/

/-- ADD and MUL (R66, R67): whatever next state the meaning answers, the queue, the log and `halted` are as before; `N` too; the
fault register and its information change together, by taking a fault, or not at all, and then `ip` moves by 4; every
address but the one the write target resolves to reads as before, and where it resolves to none, every address does. -/
def Obligations.ArithmeticFrame : Prop :=
  ∀ (i : Instr) (a b : ReadParam) (c : WriteParam) (s t : State), i = .add a b c ∨ i = .mul a b c →
    Sys2Proof.Machine.exec i s = .next t →
    t.inq = s.inq ∧ t.outlog = s.outlog ∧ t.halted = s.halted ∧ t.mem.size = s.mem.size ∧
    ((t.fault = s.fault ∧ t.faultInfo = s.faultInfo ∧ t.ip = s.ip + 4) ∨
      (∃ r : Raised, t = { s with fault := some r.kind, faultInfo := r.info })) ∧
    (∀ x, resolveWrite s c 3 = .ok x → ∀ y, y ≠ x → t.mem.get y = s.mem.get y) ∧
    (∀ r, resolveWrite s c 3 = .error r → t.mem = s.mem)

/-- IN (R70): the same, but that a completed IN removes the head of the queue, and a faulting one removes nothing. -/
def Obligations.InputFrame : Prop :=
  ∀ (c : WriteParam) (s t : State), Sys2Proof.Machine.exec (.inp c) s = .next t →
    t.outlog = s.outlog ∧ t.halted = s.halted ∧ t.mem.size = s.mem.size ∧
    ((t.inq = s.inq.tail ∧ s.inq ≠ [] ∧ t.fault = s.fault ∧ t.faultInfo = s.faultInfo ∧ t.ip = s.ip + 2) ∨
      (∃ r : Raised, t = { s with fault := some r.kind, faultInfo := r.info })) ∧
    (∀ x, resolveWrite s c 1 = .ok x → ∀ y, y ≠ x → t.mem.get y = s.mem.get y) ∧
    (∀ r, resolveWrite s c 1 = .error r → t.mem = s.mem)

/-- OUT and HLT (R71, R74) store nothing: all of memory and the queue are as before; HLT leaves the log and the fault register
alone, OUT leaves `halted` alone and only appends to the log. -/
def Obligations.NonStoringFrame : Prop :=
  ∀ (i : Instr) (a : ReadParam) (s t : State), i = .out a ∨ i = .hlt → Sys2Proof.Machine.exec i s = .next t →
    t.mem = s.mem ∧ t.inq = s.inq ∧
    (i = .hlt → t.outlog = s.outlog ∧ t.fault = s.fault ∧ t.faultInfo = s.faultInfo) ∧
    (i = .out a → t.halted = s.halted ∧
      ((t.fault = s.fault ∧ t.faultInfo = s.faultInfo ∧ ∃ x, t.outlog = s.outlog ++ [(s.ip, x)]) ∨
        (∃ r : Raised, t = { s with fault := some r.kind, faultInfo := r.info })))

/-! ## The step (40_execution_loop.md) -/

/-- R58: when the cells at the instruction pointer decode to an instruction, a step of a running machine is that
instruction's meaning in that same state; the meaning itself moves `ip`. -/
def Obligations.StepRunsTheDecodedInstruction : Prop :=
  ∀ (s : State) (i : Instr) (rest : List Int), s.Running →
    decode (s.mem.cellsFrom s.ip (Config.maxParams + 1)) = .ok (i, rest) →
    Sys2Proof.Machine.step s = Sys2Proof.Machine.exec i s

/-- R58, R20 (decision D9): a running machine always takes a step: it answers a next state, never a fault of the model and
never a refusal. -/
def Obligations.RunningMachineAlwaysSteps : Prop :=
  ∀ s : State, s.Running → ∃ t, Sys2Proof.Machine.step s = .next t

/-- R20, R81, R85 (decisions D9, D11, D12): in a terminal state no step is taken; the stop names what ended the run, halted
first (log 4). -/
def Obligations.TerminalMachineTakesNoStep : Prop :=
  ∀ s : State, (s.halted = true → Sys2Proof.Machine.step s = .fault .alreadyHalted) ∧
    (∀ k, s.halted = false → s.fault = some k → Sys2Proof.Machine.step s = .fault (.alreadyFaulted k))

/-- R64: a completed step advances `ip` by the length of the word fetched, 4, 2 or 1, whatever it wrote; a faulting step does
not advance; the advance is not bounds-checked, the fault comes at the next step's fetch. -/
def Obligations.PointerAdvancesByTheLength : Prop :=
  ∀ s t : State, s.Running → Sys2Proof.Machine.step s = .next t →
    (t.fault = none → 0 ≤ s.mem.get s.ip ∧
      (((s.mem.get s.ip % 100 = 1 ∨ s.mem.get s.ip % 100 = 2) ∧ t.ip = s.ip + 4) ∨
       ((s.mem.get s.ip % 100 = 3 ∨ s.mem.get s.ip % 100 = 4) ∧ t.ip = s.ip + 2) ∨
       (s.mem.get s.ip % 100 = 99 ∧ t.ip = s.ip + 1))) ∧
    (t.fault ≠ none → t.ip = s.ip) ∧
    (t.Running → t.mem.size ≤ t.ip →
      ∃ u, Sys2Proof.Machine.step t = .next u ∧ u.fault = some .outOfBounds ∧ u.faultInfo = some (t.ip : Int))

/-- R60: every write of a step is made only when no stage raised anything: a faulting step leaves memory, queue, log,
`halted` and `ip` as they were, and the queue loses its head only in the step that stores that value. -/
def Obligations.CommitIsAtomic : Prop :=
  ∀ s t : State, s.Running → Sys2Proof.Machine.step s = .next t →
    (t.fault ≠ none → t.mem = s.mem ∧ t.inq = s.inq ∧ t.outlog = s.outlog ∧ t.halted = s.halted ∧ t.ip = s.ip) ∧
    (t.inq ≠ s.inq → ∃ c x, fetchInstr s = .ok (.inp c) ∧ s.inq = x :: t.inq ∧
      0 ≤ c.raw ∧ c.raw < (s.mem.size : Int) ∧ t.mem.get c.raw.toNat = x)

/-- R26: a step that completes has referenced addresses of memory only: its own cells, its position-mode operands, its write
target; there is no wraparound at either end. -/
def Obligations.CompletedStepStaysInBounds : Prop :=
  (∀ (s t : State), s.Running → Sys2Proof.Machine.step s = .next t → t.fault = none →
    ∃ i, fetchInstr s = .ok i ∧ s.ip + i.length ≤ s.mem.size ∧
      (∀ a b c, i = .add a b c ∨ i = .mul a b c →
        (∀ p, p = a ∨ p = b → p.mode = .position → 0 ≤ p.raw ∧ p.raw < (s.mem.size : Int)) ∧
        0 ≤ c.raw ∧ c.raw < (s.mem.size : Int)) ∧
      (∀ c, i = .inp c → 0 ≤ c.raw ∧ c.raw < (s.mem.size : Int)) ∧
      (∀ a, i = .out a → a.mode = .position → 0 ≤ a.raw ∧ a.raw < (s.mem.size : Int))) ∧
  (∀ s : State, memRead s (-1) = .error ⟨.outOfBounds, some (-1)⟩ ∧
    memRead s (s.mem.size : Int) = .error ⟨.outOfBounds, some (s.mem.size : Int)⟩)

/-- 20_memory.md section 6 (R39): a store by opcode 1, 2 or 3, at whatever address of memory, its own cells among them, does
not affect the step that makes it, and the next step's fetch sees it. Where the cell stored to is the next
instruction's word, the value stored is the word that stage B decodes; where it is a parameter of the instruction that is
fetched, the value stored is that parameter. -/
def Obligations.StoreIsSeenByTheNextFetch : Prop :=
  ∀ (i : Instr) (c : WriteParam) (s : State) (x : Nat) (v : Int), s.Running → fetchInstr s = .ok i →
    storeTarget i = some c → TargetIs s c x → StoresValue s i v →
    ∃ t, Sys2Proof.Machine.step s = .next t ∧ t.Running ∧ t.ip = s.ip + i.length ∧ memRead t (x : Int) = .ok v ∧
      (x = t.ip →
        fetchInstr t = (do let h ← decodeStage v; fetchParams t h) ∧
        (∀ e, decodeWord v = .error e →
          Sys2Proof.Machine.step t = .next { t with fault := some .decodeError, faultInfo := some v }) ∧
        (0 ≤ v → v % 100 = 99 → Sys2Proof.Machine.step t = .next { t with halted := true, ip := t.ip + 1 })) ∧
      (∀ j, fetchInstr t = .ok j → Sys2Proof.Machine.step t = Sys2Proof.Machine.exec j t ∧
        (x = t.ip → decodeWord v = .ok j.head) ∧
        (∀ k, x = t.ip + (k + 1) → k < j.params.length → j.params[k]? = some v))

/-- 10_state.md section 5 (R14): no instruction reads the log or `fault_info`: two running states that differ in these only
step to states that differ in these only: the same pairs are appended, a fault records the same information, and a step
that completes leaves `fault_info` as it was. -/
def Obligations.LogAndFaultInfoAreNeverRead : Prop :=
  ∀ (s t : State) (log : List (Nat × Int)) (info : Option Int), s.Running → Sys2Proof.Machine.step s = .next t →
    ∃ pairs u, t.outlog = s.outlog ++ pairs ∧
      Sys2Proof.Machine.step { s with outlog := log, faultInfo := info } = .next u ∧
      u = { t with outlog := log ++ pairs, faultInfo := u.faultInfo } ∧
      (t.fault ≠ none → u.faultInfo = t.faultInfo) ∧
      (t.fault = none → u.faultInfo = info)

/-! ## Faults (60_exceptions.md) -/

/-- R84 (decision D8): fault entry is precise: the state at the start of the step with exactly `fault` and `fault_info`
changed, whatever was raised. -/
def Obligations.FaultEntryChangesOnlyTheFaultRegisters : Prop :=
  ∀ s t : State, s.Running → Sys2Proof.Machine.step s = .next t → t.fault ≠ none →
    t = { s with fault := t.fault, faultInfo := t.faultInfo }

/-- R77 (decisions D3, D4): DecodeError in exactly its three cases, told from the word at `ip`, with the word recorded. -/
def Obligations.DecodeErrorInItsThreeCases : Prop :=
  ∀ s : State, s.Running → s.ip < s.mem.size →
    (((s.mem.get s.ip < 0) ∨
      (0 ≤ s.mem.get s.ip ∧ s.mem.get s.ip % 100 ≠ 1 ∧ s.mem.get s.ip % 100 ≠ 2 ∧ s.mem.get s.ip % 100 ≠ 3 ∧
        s.mem.get s.ip % 100 ≠ 4 ∧ s.mem.get s.ip % 100 ≠ 99) ∨
      (0 ≤ s.mem.get s.ip ∧ (s.mem.get s.ip % 100 = 1 ∨ s.mem.get s.ip % 100 = 2) ∧
        (2 ≤ s.mem.get s.ip / 100 % 10 ∨ 2 ≤ s.mem.get s.ip / 1000 % 10)) ∨
      (0 ≤ s.mem.get s.ip ∧ s.mem.get s.ip % 100 = 4 ∧ 2 ≤ s.mem.get s.ip / 100 % 10)) ↔
    Sys2Proof.Machine.step s = .next { s with fault := some .decodeError, faultInfo := some (s.mem.get s.ip) })

/-- R78 (record by decision D10): OutOfBounds is raised in four places only, and records an address that is outside memory. -/
def Obligations.OutOfBoundsInItsFourPlaces : Prop :=
  ∀ s t : State, s.Running → Sys2Proof.Machine.step s = .next t → t.fault = some .outOfBounds →
    ∃ a : Int, t.faultInfo = some a ∧ (a < 0 ∨ (s.mem.size : Int) ≤ a) ∧
      (a = (s.ip : Int) ∨
        (∃ h k, decodeWord (s.mem.get s.ip) = .ok h ∧ 1 ≤ k ∧ k ≤ h.opcode.nparams ∧ a = ((s.ip + k : Nat) : Int) ∧
          ∀ j, 1 ≤ j → j < k → s.ip + j < s.mem.size) ∨
        (∃ i p, fetchInstr s = .ok i ∧ p.mode = .position ∧ a = p.raw ∧
          ((∃ q c, i = .add p q c ∨ i = .add q p c ∨ i = .mul p q c ∨ i = .mul q p c) ∨ i = .out p)) ∨
        (∃ i c, fetchInstr s = .ok i ∧ storeTarget i = some c ∧ c.digit = 0 ∧ a = c.raw))

/-- R79 (decision D5): a write target with a mode digit that is not 0 is InvalidWriteMode with the parameter's index, for ADD and
MUL once the operands are read, for IN at once, whatever the target's address and the queue. -/
def Obligations.NonZeroWriteModeIsInvalid : Prop :=
  (∀ (i : Instr) (a b : ReadParam) (c : WriteParam) (s : State) (x y : Int), i = .add a b c ∨ i = .mul a b c →
    OperandIs s a x → OperandIs s b y → c.digit ≠ 0 →
    Sys2Proof.Machine.exec i s = .next { s with fault := some .invalidWriteMode, faultInfo := some 3 }) ∧
  (∀ (c : WriteParam) (s : State), c.digit ≠ 0 →
    Sys2Proof.Machine.exec (.inp c) s = .next { s with fault := some .invalidWriteMode, faultInfo := some 1 })

/-- R80 (decision D9): IN with an empty queue is InputExhausted, after its write target has resolved; nothing else changes. -/
def Obligations.EmptyQueueIsInputExhausted : Prop :=
  ∀ (c : WriteParam) (s : State) (t : Nat), TargetIs s c t → s.inq = [] →
    Sys2Proof.Machine.exec (.inp c) s = .next { s with fault := some .inputExhausted, faultInfo := none }

/-- R83 (decision D7): a step reports the first row of the spec's priority table whose condition holds, and completes when none
does. The table is written from the cells and digits alone (`priorityTable`). -/
def Obligations.StepReportsTheFirstFaultOfThePriorityTable : Prop :=
  ∀ s : State, s.Running →
    (∀ r, firstFault s = some r →
      Sys2Proof.Machine.step s = .next { s with fault := some r.kind, faultInfo := r.info }) ∧
    (firstFault s = none → ∃ t, Sys2Proof.Machine.step s = .next t ∧ t.fault = none)

/-- R76 (decision D10): the numeric codes of the kinds, 0 to 5, all different. -/
def Obligations.FaultCodesAreTheTables : Prop :=
  faultCode none = 0 ∧ faultCode (some .decodeError) = 1 ∧ faultCode (some .outOfBounds) = 2 ∧
  faultCode (some .invalidWriteMode) = 3 ∧ faultCode (some .inputExhausted) = 4 ∧ alreadyHaltedCode = 5 ∧
  ∀ k l, faultCode k = faultCode l → k = l

/-! ## Reset and the invariant (10_state.md) -/

/-- R94, R21 (decisions D2, D9, D10, D13, D23): LOAD in any state answers Ok and leaves every component at its reset value, with
memory the image, cell for cell. That this memory is in canonical form is a clause of the model's own (log 3, DESIGN CHOICE),
not of these rules. -/
def Obligations.LoadResetsEverything : Prop :=
  ∀ (image : List Int) (s : State), ∃ t, command (.load image) s = (t, .status .ok) ∧
    t.mem.toList = image ∧ t.mem.size = image.length ∧ t.mem.wf = true ∧ t.ip = 0 ∧ t.inq = [] ∧ t.outlog = [] ∧
    t.halted = false ∧ t.fault = none ∧ t.faultInfo = none

/-- The invariant holds at reset. That `State.reset` is LOAD of the empty image is the model's choice (log 1). -/
def Obligations.ResetMeetsTheInvariant : Prop := State.reset.Inv

/-- R22, R76: every step keeps the invariant: canonical memory, `ip` inside or just past memory, never halted and faulted
together, a fault record that tells the truth, a log of strictly rising passed positions. -/
def Obligations.StepKeepsTheInvariant : Prop :=
  ∀ s t : State, s.Inv → Sys2Proof.Machine.step s = .next t → t.Inv

/-- R22, R96: so does every host command, in every state that meets it; LOAD establishes it from any state. -/
def Obligations.CommandsKeepTheInvariant : Prop :=
  (∀ (c : Command) (s : State), s.Inv → (command c s).1.Inv) ∧
  (∀ (image : List Int) (s : State), (command (.load image) s).1.Inv)

/-- R22 items 3, 5, 7: between resets `halted` and `fault` are sticky, the log only grows, and a step leaves the queue or takes
its head. -/
def Obligations.StatusIsStickyAndTheLogGrows : Prop :=
  ∀ (c : Command) (s : State), (∀ image, c ≠ .load image) →
    (s.halted = true → (command c s).1.halted = true) ∧
    (∀ k, s.fault = some k → (command c s).1.fault = some k) ∧
    s.outlog <+: (command c s).1.outlog ∧
    (c = .step → (command c s).1.inq = s.inq ∨ (command c s).1.inq = s.inq.tail)

/-! ## Runs and host commands (70_reset_and_hazards.md) -/

/-- R62: Run repeats Step until the state is terminal. -/
def Obligations.RunRepeatsStepUntilTerminal : Prop :=
  (∀ s : State, s.Terminal → run s = s) ∧
  (∀ s t : State, s.Running → Sys2Proof.Machine.step s = .next t → run s = run t)

/-- R63: every run ends in a terminal state, and a run from reset takes at most `ceil(N / 2) + 1` steps. -/
def Obligations.EveryRunEnds : Prop :=
  (∀ s : State, (run s).Terminal) ∧
  (∀ image inputs : List Int,
    (runSteps ((image.length + 1) / 2 + 1) ((State.load image).enqueueAll inputs)).Terminal)

/-- R99: RUN(inputs) is ENQ of each input in order followed by STEP repeated until the status is not Ok; and it answers
Halted, AlreadyHalted or a fault, never Ok. The bound `runBound s` on the repetitions is the model's (log 17, DEDUCED from
R63). -/
def Obligations.RunIsEnqueueingThenStepping : Prop :=
  ∀ (inputs : List Int) (s : State),
    (∀ n, runBound s ≤ n → stepUntil n (applyAll (inputs.map .enq) s) = hostRun inputs s) ∧
    (hostRun inputs s).2 ≠ .ok

/-- R20, R81, R85, R97 to R99 (decisions D9, D11, D12): a terminal machine is immutable under every command but LOAD, and ENQ, STEP and
RUN answer AlreadyHalted, or the recorded fault. -/
def Obligations.TerminalMachineIsImmutable : Prop :=
  ∀ (s : State) (v : Int) (inputs : List Int), s.Terminal →
    (∀ c, (∀ image, c ≠ .load image) → (command c s).1 = s) ∧
    (s.halted = true → hostEnq v s = (s, .alreadyHalted) ∧ hostStep s = (s, .alreadyHalted) ∧
      hostRun inputs s = (s, .alreadyHalted)) ∧
    (∀ k, s.halted = false → s.fault = some k → hostEnq v s = (s, .fault k) ∧ hostStep s = (s, .fault k) ∧
      hostRun inputs s = (s, .fault k))

/-- R97, R98 (decisions D13, D15): on a running machine ENQ appends one value and answers Ok; STEP answers the fault its step
raised, Halted if it executed HLT, Ok otherwise. -/
def Obligations.EnqAndStepOnARunningMachine : Prop :=
  ∀ s : State, s.Running →
    (∀ v, hostEnq v s = ({ s with inq := s.inq ++ [v] }, .ok)) ∧
    (∃ t st, Sys2Proof.Machine.step s = .next t ∧ hostStep s = (t, st) ∧
      (∀ k, t.fault = some k → st = .fault k) ∧
      (t.fault = none → t.halted = true → st = .halted) ∧
      (t.fault = none → t.halted = false → st = .ok))

/-- R100 (decision D20): the inspection commands change nothing in any state; PEEK gives the cell of an address of memory and
Fault(OutOfBounds) for any other; LOG gives the whole log; STATUS gives the six values. -/
def Obligations.InspectionShowsAndChangesNothing : Prop :=
  ∀ (s : State) (a : Int),
    (∃ r, command (.peek a) s = (s, r) ∧
      (0 ≤ a → a < (s.mem.size : Int) → ∃ v, s.mem.toList[a.toNat]? = some v ∧ r = .cell v) ∧
      (a < 0 ∨ (s.mem.size : Int) ≤ a → r = .status (.fault .outOfBounds))) ∧
    command .log s = (s, .log s.outlog) ∧
    (∃ r, command .status s = (s, .report r) ∧ r.ip = s.ip ∧ r.halted = s.halted ∧ r.fault = s.fault ∧
      r.faultInfo = s.faultInfo ∧ r.size = s.mem.size ∧ r.queued = s.inq.length)

/-- 70_reset_and_hazards.md section 5 (R103), from R74: a run of a running machine that ends successfully ends just past an
instruction word with opcode 99, with no fault; one that does not, ends at the instruction that could not be executed,
whose step raises that fault. -/
def Obligations.RunEndsAtAHltOrAtTheFaultingInstruction : Prop :=
  ∀ s : State, s.Running →
    ((run s).Successful → ∃ p, (run s).ip = p + 1 ∧ p < (run s).mem.size ∧ 0 ≤ (run s).mem.get p ∧
      (run s).mem.get p % 100 = 99) ∧
    (¬ (run s).Successful → (run s).fault ≠ none ∧
      Sys2Proof.Machine.step { run s with fault := none, faultInfo := none } = .next (run s))

/-! ## Histories (42_io.md section 3, 10_state.md section 10) -/

/-- R72, R16 (unbounded queue by decision D13): over every history of ENQ and STEP from reset, the values the completed INs
stored, in order, followed by the queue, are the values enqueued, in order. -/
def Obligations.InputsAreConsumedInFifoOrder : Prop :=
  ∀ (image : List Int) (h : List Action),
    gather inputStored h (State.load image) ++ (applyAll h (State.load image)).inq =
      enqueuedBy h (State.load image)

/-- R73, R17 (unbounded log by decision D14): over every history of ENQ and STEP from reset, the log lists one pair for every
completed OUT, in execution order, and nothing else. -/
def Obligations.LogListsTheCompletedOutputs : Prop :=
  ∀ (image : List Int) (h : List Action),
    (applyAll h (State.load image)).outlog = gather pairEmitted h (State.load image)

/-- R22 item 8: over every history of ENQ and STEP from reset, `ip` is the sum of the lengths of the completed
instructions. -/
def Obligations.PointerSumsTheLengths : Prop :=
  ∀ (image : List Int) (h : List Action),
    (applyAll h (State.load image)).ip = (gather (fun s => [cellsPassed s]) h (State.load image)).sum

/-- R72, R70, as a law of one step from any state: the value the step stores by a completed IN, if it completes one, followed by
the queue after it, is the queue before it. -/
def Obligations.StepTakesTheInputItStores : Prop :=
  ∀ s : State, inputStored s ++ (stepState s).inq = s.inq

/-- R73, R71, as a law of one step from any state: the step appends to the log the pair of the OUT it completes, if it completes
one, and nothing else. -/
def Obligations.StepAppendsThePairItEmits : Prop :=
  ∀ s : State, (stepState s).outlog = s.outlog ++ pairEmitted s
end

