-- ==== Sys2Proof/Laws/Decode.lean ====
section
/-! SUPPORT. The decoder's and the encoder's pieces, each said once (30_encoding.md R43 to R51). -/

namespace Sys2Proof

@[simp] theorem Opcode.ofNumber_number (op : Opcode) : Opcode.ofNumber op.number = some op := by
  cases op <;> rfl

/-- Only the number of an opcode names it (R45: the set is closed). -/
theorem Opcode.ofNumber_eq_some {n : Nat} {op : Opcode} (h : Opcode.ofNumber n = some op) : n = op.number := by
  unfold Opcode.ofNumber at h
  split at h <;> cases h <;> rfl

/-- A value of the opcode field that names no opcode is none of the five numbers. -/
theorem Opcode.ofNumber_eq_none {n : Nat} (h : Opcode.ofNumber n = none) :
    n ≠ 1 ∧ n ≠ 2 ∧ n ≠ 3 ∧ n ≠ 4 ∧ n ≠ 99 := by
  refine ⟨?_, ?_, ?_, ?_, ?_⟩ <;> rintro rfl <;> cases h

theorem Opcode.ofNumber_none_of {n : Nat} (h : n ≠ 1 ∧ n ≠ 2 ∧ n ≠ 3 ∧ n ≠ 4 ∧ n ≠ 99) : Opcode.ofNumber n = none := by
  unfold Opcode.ofNumber
  split <;> simp_all

@[simp] theorem Mode.ofDigit_toDigit (m : Mode) : Mode.ofDigit m.toDigit = some m := by
  cases m <;> rfl

theorem Mode.ofDigit_eq_some {d : Nat} {m : Mode} (h : Mode.ofDigit d = some m) : d = m.toDigit := by
  unfold Mode.ofDigit at h
  split at h <;> cases h <;> rfl

theorem Mode.ofDigit_eq_none {d : Nat} (h : Mode.ofDigit d = none) : 2 ≤ d := by
  match d, h with
  | 0, h => cases h
  | 1, h => cases h
  | d + 2, _ => exact Nat.le_add_left 2 d

theorem Mode.ofDigit_none_of {d : Nat} (h : 2 ≤ d) : Mode.ofDigit d = none := by
  unfold Mode.ofDigit
  split
  · omega
  · omega
  · rfl

theorem Mode.toDigit_lt (m : Mode) : m.toDigit < 2 := by
  cases m <;> decide

theorem digit_lt (w k : Nat) : digit w k < 10 := Nat.mod_lt _ (by decide)

theorem modeDigit_lt (w k : Nat) : modeDigit w k < 10 := digit_lt w (k + 1)

/-- The length of each opcode (R45, R64). -/
@[simp] theorem Opcode.length_add : Opcode.add.length = 4 := rfl
@[simp] theorem Opcode.length_mul : Opcode.mul.length = 4 := rfl
@[simp] theorem Opcode.length_inp : Opcode.inp.length = 2 := rfl
@[simp] theorem Opcode.length_out : Opcode.out.length = 2 := rfl
@[simp] theorem Opcode.length_hlt : Opcode.hlt.length = 1 := rfl
@[simp] theorem Instr.length_add (a b : ReadParam) (c : WriteParam) : (Instr.add a b c).length = 4 := rfl
@[simp] theorem Instr.length_mul (a b : ReadParam) (c : WriteParam) : (Instr.mul a b c).length = 4 := rfl
@[simp] theorem Instr.length_inp (c : WriteParam) : (Instr.inp c).length = 2 := rfl
@[simp] theorem Instr.length_out (a : ReadParam) : (Instr.out a).length = 2 := rfl
@[simp] theorem Instr.length_hlt : Instr.hlt.length = 1 := rfl

/-- The three ways the decoder rejects a non-negative or negative word, and nothing else (R47 to R49). -/
theorem decodeWord_eq_ok {w : Int} {h : Head} (hd : decodeWord w = .ok h) :
    0 ≤ w ∧ w.toNat % 100 = h.opcode.number ∧ headOf h.opcode w.toNat = .ok h := by
  unfold decodeWord at hd
  split at hd
  · cases hd
  · rename_i hw
    split at hd
    · cases hd
    · rename_i op hop
      have hh : h.opcode = op := by
        cases op <;> simp only [headOf] at hd
        · split at hd <;> cases hd; rfl
        · split at hd <;> cases hd; rfl
        · cases hd; rfl
        · split at hd <;> cases hd; rfl
        · cases hd; rfl
      exact ⟨Int.not_lt.mp hw, hh ▸ Opcode.ofNumber_eq_some hop, hh ▸ hd⟩

/-- A non-negative word with a recognized opcode field decodes by that opcode's row. -/
theorem decodeWord_of_opcode {w : Int} {op : Opcode} (h0 : 0 ≤ w) (h : w.toNat % 100 = op.number) :
    decodeWord w = headOf op w.toNat := by
  unfold decodeWord opcodeField
  rw [if_neg (Int.not_lt.mpr h0), h, Opcode.ofNumber_number]

/-- What a decoded word's modes are, digit by digit (R43). -/
theorem headOf_add {w : Nat} {h : Head} (hd : headOf .add w = .ok h) :
    ∃ a b, h = .add a b (modeDigit w 3) ∧ a.toDigit = modeDigit w 1 ∧ b.toDigit = modeDigit w 2 := by
  simp only [headOf] at hd
  split at hd
  · rename_i a b ha hb
    exact ⟨a, b, by simpa using hd.symm, (Mode.ofDigit_eq_some ha).symm, (Mode.ofDigit_eq_some hb).symm⟩
  · cases hd

theorem headOf_mul {w : Nat} {h : Head} (hd : headOf .mul w = .ok h) :
    ∃ a b, h = .mul a b (modeDigit w 3) ∧ a.toDigit = modeDigit w 1 ∧ b.toDigit = modeDigit w 2 := by
  simp only [headOf] at hd
  split at hd
  · rename_i a b ha hb
    exact ⟨a, b, by simpa using hd.symm, (Mode.ofDigit_eq_some ha).symm, (Mode.ofDigit_eq_some hb).symm⟩
  · cases hd

theorem headOf_inp {w : Nat} {h : Head} (hd : headOf .inp w = .ok h) : h = .inp (modeDigit w 1) := by
  simpa [headOf] using hd.symm

theorem headOf_out {w : Nat} {h : Head} (hd : headOf .out w = .ok h) :
    ∃ a, h = .out a ∧ a.toDigit = modeDigit w 1 := by
  simp only [headOf] at hd
  split at hd
  · rename_i a ha
    exact ⟨a, by simpa using hd.symm, (Mode.ofDigit_eq_some ha).symm⟩
  · cases hd

theorem headOf_hlt {w : Nat} {h : Head} (hd : headOf .hlt w = .ok h) : h = .hlt := by
  simpa [headOf] using hd.symm

/-- Parameter assembly succeeds exactly on a list that begins with the instruction's parameters. -/
theorem assemble_eq_ok_iff (h : Head) (cells : List Int) (i : Instr) (rest : List Int) :
    assemble h cells = .ok (i, rest) ↔ i.head = h ∧ cells = i.params ++ rest := by
  constructor
  · intro ha
    unfold assemble at ha
    split at ha <;> cases ha <;> exact ⟨rfl, rfl⟩
  · rintro ⟨rfl, rfl⟩
    cases i <;> rfl

theorem Instr.params_length (i : Instr) : i.params.length = i.opcode.nparams := by
  cases i <;> rfl

theorem Instr.head_opcode (i : Instr) : i.head.opcode = i.opcode := by
  cases i <;> rfl

end Sys2Proof
end

