-- ==== Sys2Proof/Laws/State.lean ====
section
/-! SUPPORT. One lemma per field of the state and per update of it, each true by unfolding, so that no later proof unfolds a
record update. -/

namespace Sys2Proof.Machine

/-! ### `memWrite` -/

@[simp] theorem memWrite_mem (s : State) (a : Nat) (v : Int) : (memWrite s a v).mem = s.mem.set a v := rfl
@[simp] theorem memWrite_ip (s : State) (a : Nat) (v : Int) : (memWrite s a v).ip = s.ip := rfl
@[simp] theorem memWrite_inq (s : State) (a : Nat) (v : Int) : (memWrite s a v).inq = s.inq := rfl
@[simp] theorem memWrite_outlog (s : State) (a : Nat) (v : Int) : (memWrite s a v).outlog = s.outlog := rfl
@[simp] theorem memWrite_halted (s : State) (a : Nat) (v : Int) : (memWrite s a v).halted = s.halted := rfl
@[simp] theorem memWrite_fault (s : State) (a : Nat) (v : Int) : (memWrite s a v).fault = s.fault := rfl
@[simp] theorem memWrite_faultInfo (s : State) (a : Nat) (v : Int) : (memWrite s a v).faultInfo = s.faultInfo := rfl

/-! ### `State.advance` -/

@[simp] theorem State.advance_mem (s : State) (n : Nat) : (s.advance n).mem = s.mem := rfl
@[simp] theorem State.advance_ip (s : State) (n : Nat) : (s.advance n).ip = s.ip + n := rfl
@[simp] theorem State.advance_inq (s : State) (n : Nat) : (s.advance n).inq = s.inq := rfl
@[simp] theorem State.advance_outlog (s : State) (n : Nat) : (s.advance n).outlog = s.outlog := rfl
@[simp] theorem State.advance_halted (s : State) (n : Nat) : (s.advance n).halted = s.halted := rfl
@[simp] theorem State.advance_fault (s : State) (n : Nat) : (s.advance n).fault = s.fault := rfl
@[simp] theorem State.advance_faultInfo (s : State) (n : Nat) : (s.advance n).faultInfo = s.faultInfo := rfl

/-! ### `State.popInput` -/

@[simp] theorem State.popInput_mem (s : State) : s.popInput.mem = s.mem := rfl
@[simp] theorem State.popInput_ip (s : State) : s.popInput.ip = s.ip := rfl
@[simp] theorem State.popInput_inq (s : State) : s.popInput.inq = s.inq.tail := rfl
@[simp] theorem State.popInput_outlog (s : State) : s.popInput.outlog = s.outlog := rfl
@[simp] theorem State.popInput_halted (s : State) : s.popInput.halted = s.halted := rfl
@[simp] theorem State.popInput_fault (s : State) : s.popInput.fault = s.fault := rfl
@[simp] theorem State.popInput_faultInfo (s : State) : s.popInput.faultInfo = s.faultInfo := rfl

/-! ### `State.emit` -/

@[simp] theorem State.emit_mem (s : State) (v : Int) : (s.emit v).mem = s.mem := rfl
@[simp] theorem State.emit_ip (s : State) (v : Int) : (s.emit v).ip = s.ip := rfl
@[simp] theorem State.emit_inq (s : State) (v : Int) : (s.emit v).inq = s.inq := rfl
@[simp] theorem State.emit_outlog (s : State) (v : Int) : (s.emit v).outlog = s.outlog ++ [(s.ip, v)] := rfl
@[simp] theorem State.emit_halted (s : State) (v : Int) : (s.emit v).halted = s.halted := rfl
@[simp] theorem State.emit_fault (s : State) (v : Int) : (s.emit v).fault = s.fault := rfl
@[simp] theorem State.emit_faultInfo (s : State) (v : Int) : (s.emit v).faultInfo = s.faultInfo := rfl

/-! ### `State.halt` -/

@[simp] theorem State.halt_mem (s : State) : s.halt.mem = s.mem := rfl
@[simp] theorem State.halt_ip (s : State) : s.halt.ip = s.ip := rfl
@[simp] theorem State.halt_inq (s : State) : s.halt.inq = s.inq := rfl
@[simp] theorem State.halt_outlog (s : State) : s.halt.outlog = s.outlog := rfl
@[simp] theorem State.halt_halted (s : State) : s.halt.halted = true := rfl
@[simp] theorem State.halt_fault (s : State) : s.halt.fault = s.fault := rfl
@[simp] theorem State.halt_faultInfo (s : State) : s.halt.faultInfo = s.faultInfo := rfl

/-! ### `State.takeFault` -/

@[simp] theorem State.takeFault_mem (s : State) (r : Raised) : (s.takeFault r).mem = s.mem := rfl
@[simp] theorem State.takeFault_ip (s : State) (r : Raised) : (s.takeFault r).ip = s.ip := rfl
@[simp] theorem State.takeFault_inq (s : State) (r : Raised) : (s.takeFault r).inq = s.inq := rfl
@[simp] theorem State.takeFault_outlog (s : State) (r : Raised) : (s.takeFault r).outlog = s.outlog := rfl
@[simp] theorem State.takeFault_halted (s : State) (r : Raised) : (s.takeFault r).halted = s.halted := rfl
@[simp] theorem State.takeFault_fault (s : State) (r : Raised) : (s.takeFault r).fault = some r.kind := rfl
@[simp] theorem State.takeFault_faultInfo (s : State) (r : Raised) : (s.takeFault r).faultInfo = r.info := rfl

/-! ### `State.enqueue` -/

@[simp] theorem State.enqueue_mem (s : State) (v : Int) : (s.enqueue v).mem = s.mem := rfl
@[simp] theorem State.enqueue_ip (s : State) (v : Int) : (s.enqueue v).ip = s.ip := rfl
@[simp] theorem State.enqueue_inq (s : State) (v : Int) : (s.enqueue v).inq = s.inq ++ [v] := rfl
@[simp] theorem State.enqueue_outlog (s : State) (v : Int) : (s.enqueue v).outlog = s.outlog := rfl
@[simp] theorem State.enqueue_halted (s : State) (v : Int) : (s.enqueue v).halted = s.halted := rfl
@[simp] theorem State.enqueue_fault (s : State) (v : Int) : (s.enqueue v).fault = s.fault := rfl
@[simp] theorem State.enqueue_faultInfo (s : State) (v : Int) : (s.enqueue v).faultInfo = s.faultInfo := rfl

/-! ### `State.load` -/

@[simp] theorem State.load_mem (image : List Int) : (State.load image).mem = Memory.ofList image := rfl
@[simp] theorem State.load_ip (image : List Int) : (State.load image).ip = 0 := rfl
@[simp] theorem State.load_inq (image : List Int) : (State.load image).inq = [] := rfl
@[simp] theorem State.load_outlog (image : List Int) : (State.load image).outlog = [] := rfl
@[simp] theorem State.load_halted (image : List Int) : (State.load image).halted = false := rfl
@[simp] theorem State.load_fault (image : List Int) : (State.load image).fault = none := rfl
@[simp] theorem State.load_faultInfo (image : List Int) : (State.load image).faultInfo = none := rfl

/-- The reset state is LOAD of the empty image (70_reset_and_hazards.md R94, notes/assumptions/1.md). -/
theorem State.load_nil : State.load [] = State.reset := rfl

/-! ### `settle` -/

@[simp] theorem settle_ok (s t : State) : settle s (.ok t) = .next t := rfl
@[simp] theorem settle_error (s : State) (r : Raised) : settle s (.error r) = .next (s.takeFault r) := rfl

/-! ### Sequencing of stages: the first fault wins (40_execution_loop.md R59) -/

@[simp] theorem stage_ok {α β : Type} (a : α) (f : α → Except Raised β) : (Except.ok a >>= f) = f a := rfl
@[simp] theorem stage_error {α β : Type} (r : Raised) (f : α → Except Raised β) :
    ((Except.error r : Except Raised α) >>= f) = .error r := rfl
@[simp] theorem stage_pure {α : Type} (a : α) : (pure a : Except Raised α) = .ok a := rfl

end Sys2Proof.Machine
end

