-- ==== Sys2Proof/Laws/Memory.lean ====
section
/-! SUPPORT. The laws of the memory operations: a read after a write, what a write leaves alone, and that the canonical form
is kept. -/

namespace Sys2Proof.Machine

/-! ## One list of cells -/

theorem lookupCell_eraseCell_self (cells : List (Nat × Int)) (a : Nat) :
    lookupCell (eraseCell a cells) a = Config.unlistedCell := by
  induction cells with
  | nil => rfl
  | cons c rest ih =>
    obtain ⟨b, v⟩ := c
    by_cases h : b = a <;> simp_all [eraseCell, lookupCell]

theorem lookupCell_eraseCell_other (cells : List (Nat × Int)) {a b : Nat} (h : b ≠ a) :
    lookupCell (eraseCell a cells) b = lookupCell cells b := by
  induction cells with
  | nil => rfl
  | cons c rest ih =>
    obtain ⟨k, v⟩ := c
    by_cases hk : k = a
    · have hkb : k ≠ b := fun e => h (e ▸ hk)
      simp_all [eraseCell, lookupCell]
    · by_cases hkb : k = b <;> simp_all [eraseCell, lookupCell]

theorem mem_eraseCell {cells : List (Nat × Int)} {a : Nat} {c : Nat × Int} (h : c ∈ eraseCell a cells) : c.1 ≠ a := by
  simpa [eraseCell] using (List.mem_filter.mp h).2

theorem lookupCell_insertCell_self (cells : List (Nat × Int)) (a : Nat) (v : Int) (h : ∀ c ∈ cells, c.1 ≠ a) :
    lookupCell (insertCell a v cells) a = v := by
  induction cells with
  | nil => simp [insertCell, lookupCell]
  | cons c rest ih =>
    obtain ⟨b, u⟩ := c
    have hb : b ≠ a := h (b, u) (by simp)
    unfold insertCell
    split <;> simp_all [lookupCell]

theorem lookupCell_insertCell_other (cells : List (Nat × Int)) (v : Int) {a b : Nat} (h : b ≠ a) :
    lookupCell (insertCell a v cells) b = lookupCell cells b := by
  induction cells with
  | nil => simp [insertCell, lookupCell, h.symm]
  | cons c rest ih =>
    obtain ⟨k, u⟩ := c
    unfold insertCell
    split
    · simp [lookupCell, h.symm]
    · by_cases hk : k = b <;> simp [lookupCell, hk, ih]

/-! ## Reading and writing one cell (20_memory.md R24, R25) -/

@[simp] theorem Memory.set_size (m : Memory) (a : Nat) (v : Int) : (m.set a v).size = m.size := by
  unfold Memory.set
  split <;> rfl

/-- A read of the written cell gives the value written. -/
@[simp] theorem Memory.get_set_self (m : Memory) (a : Nat) (v : Int) (h : a < m.size) : (m.set a v).get a = v := by
  unfold Memory.set Memory.get
  simp only [h, if_true]
  split
  · rename_i hv
    rw [lookupCell_eraseCell_self, hv]
  · exact lookupCell_insertCell_self _ _ _ fun c hc => mem_eraseCell hc

/-- A write leaves every other cell alone. -/
theorem Memory.get_set_other (m : Memory) (v : Int) {a b : Nat} (h : b ≠ a) : (m.set a v).get b = m.get b := by
  unfold Memory.set Memory.get
  split
  · split
    · exact lookupCell_eraseCell_other _ h
    · rw [lookupCell_insertCell_other _ _ h, lookupCell_eraseCell_other _ h]
  · rfl

/-- A write at or beyond the end of memory changes nothing: memory never grows. -/
theorem Memory.set_outside (m : Memory) (v : Int) {a : Nat} (h : m.size ≤ a) : m.set a v = m := by
  simp [Memory.set, Nat.not_lt.mpr h]

/-! ## The canonical form is kept -/

theorem cellsWf_cons {hi lo a : Nat} {v : Int} {rest : List (Nat × Int)} :
    cellsWf hi lo ((a, v) :: rest) = true ↔
      lo ≤ a ∧ a < hi ∧ v ≠ Config.unlistedCell ∧ cellsWf hi (a + 1) rest = true := by
  simp [cellsWf, and_assoc]

/-- A canonical list may be read as one with a lower bound on its addresses. -/
theorem cellsWf_weaken {hi lo lo' : Nat} {cells : List (Nat × Int)} (h : cellsWf hi lo cells = true) (hl : lo' ≤ lo) :
    cellsWf hi lo' cells = true := by
  cases cells with
  | nil => rfl
  | cons c rest =>
    obtain ⟨a, v⟩ := c
    rw [cellsWf_cons] at h ⊢
    exact ⟨le_trans hl h.1, h.2⟩

theorem cellsWf_eraseCell {hi lo : Nat} {cells : List (Nat × Int)} (a : Nat) (h : cellsWf hi lo cells = true) :
    cellsWf hi lo (eraseCell a cells) = true := by
  induction cells generalizing lo with
  | nil => rfl
  | cons c rest ih =>
    obtain ⟨b, v⟩ := c
    rw [cellsWf_cons] at h
    obtain ⟨h1, h2, h3, h4⟩ := h
    by_cases hb : b = a
    · have : eraseCell a ((b, v) :: rest) = eraseCell a rest := by simp [eraseCell, hb]
      rw [this]
      exact cellsWf_weaken (ih h4) (by omega)
    · have : eraseCell a ((b, v) :: rest) = (b, v) :: eraseCell a rest := by simp [eraseCell, hb]
      rw [this, cellsWf_cons]
      exact ⟨h1, h2, h3, ih h4⟩

theorem cellsWf_insertCell {hi lo a : Nat} {v : Int} {cells : List (Nat × Int)} (h : cellsWf hi lo cells = true)
    (hl : lo ≤ a) (hh : a < hi) (hv : v ≠ Config.unlistedCell) (hf : ∀ c ∈ cells, c.1 ≠ a) :
    cellsWf hi lo (insertCell a v cells) = true := by
  induction cells generalizing lo with
  | nil => simp [insertCell, cellsWf, hl, hh, hv]
  | cons c rest ih =>
    obtain ⟨b, u⟩ := c
    rw [cellsWf_cons] at h
    obtain ⟨h1, h2, h3, h4⟩ := h
    have hb : b ≠ a := hf (b, u) (by simp)
    unfold insertCell
    split
    · rw [cellsWf_cons, cellsWf_cons]
      exact ⟨hl, hh, hv, by omega, h2, h3, h4⟩
    · rw [cellsWf_cons]
      exact ⟨h1, h2, h3, ih h4 (by omega) fun c hc => hf c (by simp [hc])⟩

/-- A write keeps the canonical form. -/
theorem Memory.wf_set {m : Memory} (a : Nat) (v : Int) (h : m.wf = true) : (m.set a v).wf = true := by
  unfold Memory.wf at h ⊢
  unfold Memory.set
  split
  · rename_i ha
    split
    · exact cellsWf_eraseCell a h
    · rename_i hv
      exact cellsWf_insertCell (cellsWf_eraseCell a h) (Nat.zero_le a) ha hv fun c hc => mem_eraseCell hc
  · exact h

/-- Growing a canonical memory keeps the form. -/
theorem cellsWf_grow {hi hi' lo : Nat} {cells : List (Nat × Int)} (h : cellsWf hi lo cells = true) (hh : hi ≤ hi') :
    cellsWf hi' lo cells = true := by
  induction cells generalizing lo with
  | nil => rfl
  | cons c rest ih =>
    obtain ⟨a, v⟩ := c
    rw [cellsWf_cons] at h ⊢
    exact ⟨h.1, lt_of_lt_of_le h.2.1 hh, h.2.2.1, ih h.2.2.2⟩

theorem Memory.wf_atLeast {m : Memory} (n : Nat) (h : m.wf = true) : (m.atLeast n).wf = true :=
  cellsWf_grow h (Nat.le_max_left _ _)

theorem cellsWf_cellsOfList (image : List Int) {hi base : Nat} (h : base + image.length ≤ hi) :
    cellsWf hi base (cellsOfList base image) = true := by
  induction image generalizing base with
  | nil => rfl
  | cons v rest ih =>
    have hr : base + 1 + rest.length ≤ hi := by simpa [Nat.add_assoc, Nat.add_comm 1] using h
    unfold cellsOfList
    split
    · exact cellsWf_weaken (ih hr) (Nat.le_succ base)
    · rename_i hv
      rw [cellsWf_cons]
      exact ⟨le_refl base, by omega, hv, ih hr⟩

/-- The memory LOAD builds is canonical. -/
theorem Memory.wf_ofList (image : List Int) : (Memory.ofList image).wf = true :=
  cellsWf_cellsOfList image (by simp [Memory.ofList])

/-- Reset memory is canonical: it lists nothing. -/
theorem Memory.wf_reset : State.reset.mem.wf = true := rfl

/-! ## The memory as a sequence (00_scope.md R8) -/

theorem lookupCell_cellsOfList_below (image : List Int) {base a : Nat} (h : a < base) :
    lookupCell (cellsOfList base image) a = Config.unlistedCell := by
  induction image generalizing base with
  | nil => rfl
  | cons v rest ih =>
    unfold cellsOfList
    split
    · exact ih (by omega)
    · simp [lookupCell, Nat.ne_of_gt h, ih (show a < base + 1 by omega)]

theorem lookupCell_cellsOfList (image : List Int) (base k : Nat) (h : k < image.length) :
    lookupCell (cellsOfList base image) (base + k) = image[k] := by
  induction image generalizing base k with
  | nil => simp at h
  | cons v rest ih =>
    cases k with
    | zero =>
      unfold cellsOfList
      split
      · rename_i hv
        simpa [hv] using lookupCell_cellsOfList_below rest (Nat.lt_succ_self base)
      · simp [lookupCell]
    | succ k =>
      have := ih (base + 1) k (by simpa using h)
      unfold cellsOfList
      split
      · simpa [Nat.add_assoc, Nat.add_comm 1] using this
      · simpa [lookupCell, Nat.add_assoc, Nat.add_comm 1] using this

@[simp] theorem Memory.ofList_size (image : List Int) : (Memory.ofList image).size = image.length := rfl

/-- Every cell of a loaded memory is the image's (10_state.md R21). -/
theorem Memory.get_ofList (image : List Int) (a : Nat) (h : a < image.length) :
    (Memory.ofList image).get a = image[a] := by
  simpa [Memory.get, Memory.ofList] using lookupCell_cellsOfList image 0 a h

theorem Memory.cellsFrom_length (m : Memory) (a n : Nat) : (m.cellsFrom a n).length = min n (m.size - a) := by
  induction n generalizing a with
  | zero => simp [Memory.cellsFrom]
  | succ n ih =>
    unfold Memory.cellsFrom
    split
    · simp [ih]
      omega
    · simp
      omega

theorem Memory.cellsFrom_getElem? (m : Memory) (a n k : Nat) :
    (m.cellsFrom a n)[k]? = if k < n ∧ a + k < m.size then some (m.get (a + k)) else none := by
  induction n generalizing a k with
  | zero => simp [Memory.cellsFrom]
  | succ n ih =>
    unfold Memory.cellsFrom
    split
    · cases k with
      | zero => simp_all
      | succ k =>
        rw [List.getElem?_cons_succ, ih]
        simp [Nat.add_assoc, Nat.add_comm 1]
    · have : ¬ a + k < m.size := by omega
      simp [this]

/-- The sequence `[c0, ..., c(N-1)]` has `N` cells. -/
@[simp] theorem Memory.toList_length (m : Memory) : m.toList.length = m.size := by
  simp [Memory.toList, Memory.cellsFrom_length]

/-- Cell `a` of the sequence is `M[a]`, for `0 <= a < N`. -/
theorem Memory.toList_getElem? (m : Memory) (a : Nat) :
    m.toList[a]? = if a < m.size then some (m.get a) else none := by
  simp [Memory.toList, Memory.cellsFrom_getElem?]

@[simp] theorem Memory.toList_getElem (m : Memory) (a : Nat) (h : a < m.toList.length) : m.toList[a] = m.get a := by
  have hs : a < m.size := by simpa using h
  have := m.toList_getElem? a
  rw [List.getElem?_eq_getElem h, if_pos hs] at this
  exact Option.some.inj this

end Sys2Proof.Machine
end

