-- ==== Sys2Proof/Laws/Operands.lean ====
section
/-! SUPPORT. What an access and the resolver can do, said once (20_memory.md R24, R32 to R34). -/

namespace Sys2Proof.Machine

/-! ## MemRead (R24) -/

theorem memRead_inside (s : State) {a : Int} (h : s.mem.InBounds a) : memRead s a = .ok (s.mem.get a.toNat) :=
  if_pos h

theorem memRead_outside (s : State) {a : Int} (h : ¬ s.mem.InBounds a) :
    memRead s a = .error ⟨.outOfBounds, some a⟩ := if_neg h

/-- The read of a natural number's address. -/
theorem memRead_nat (s : State) (a : Nat) :
    memRead s (a : Int) = if a < s.mem.size then .ok (s.mem.get a) else .error ⟨.outOfBounds, some (a : Int)⟩ := by
  by_cases h : a < s.mem.size <;> simp [memRead, Memory.InBounds, h]

theorem memRead_eq_ok {s : State} {a v : Int} (h : memRead s a = .ok v) :
    s.mem.InBounds a ∧ v = s.mem.get a.toNat := by
  unfold memRead at h
  split at h
  · exact ⟨‹_›, by simpa using h.symm⟩
  · cases h

theorem memRead_eq_error {s : State} {a : Int} {r : Raised} (h : memRead s a = .error r) :
    ¬ s.mem.InBounds a ∧ r = ⟨.outOfBounds, some a⟩ := by
  unfold memRead at h
  split at h
  · cases h
  · exact ⟨‹_›, by simpa using h.symm⟩

/-! ## The resolver (R32 to R34) -/

/-- A read parameter resolves to exactly the operand the spec names. -/
theorem resolveRead_eq_ok_iff (s : State) (p : ReadParam) (v : Int) :
    resolveRead s p = .ok v ↔ OperandIs s p v := by
  obtain ⟨m, raw⟩ := p
  cases m with
  | position =>
    constructor
    · intro h
      obtain ⟨hb, hv⟩ := memRead_eq_ok h
      exact .inr ⟨rfl, hb.1, hb.2, hv⟩
    · rintro (⟨h, -⟩ | ⟨-, h1, h2, hv⟩)
      · cases h
      · exact hv ▸ memRead_inside s ⟨h1, h2⟩
  | immediate =>
    constructor
    · intro h
      exact .inl ⟨rfl, by simpa [resolveRead] using h.symm⟩
    · rintro (⟨-, h⟩ | ⟨h, -⟩)
      · simp [resolveRead, h]
      · cases h

/-- A read parameter fails only in position mode, with the raw value as the address. -/
theorem resolveRead_eq_error {s : State} {p : ReadParam} {r : Raised} (h : resolveRead s p = .error r) :
    p.mode = .position ∧ ¬ s.mem.InBounds p.raw ∧ r = ⟨.outOfBounds, some p.raw⟩ := by
  obtain ⟨m, raw⟩ := p
  cases m with
  | position => exact ⟨rfl, memRead_eq_error h⟩
  | immediate => cases h

/-- A write target resolves to exactly the address the spec names. -/
theorem resolveWrite_eq_ok_iff (s : State) (c : WriteParam) (k a : Nat) :
    resolveWrite s c k = .ok a ↔ TargetIs s c a := by
  obtain ⟨d, raw⟩ := c
  unfold resolveWrite TargetIs
  constructor
  · intro h
    split at h
    · split at h
      · rename_i hb
        have ha : raw.toNat = a := by simpa using h
        have h0 : 0 ≤ raw := hb.1
        have h1 : raw < (s.mem.size : Int) := hb.2
        refine ⟨‹_›, ?_, ?_⟩
        · show raw = (a : Int)
          omega
        · omega
      · cases h
    · cases h
  · rintro ⟨hd, hr, ha⟩
    simp only at hd hr
    simp [DirectDigit, Memory.InBounds, hd, hr, ha]

/-- A write target fails by its mode digit first, then by its bounds. -/
theorem resolveWrite_eq_error {s : State} {c : WriteParam} {k : Nat} {r : Raised} (h : resolveWrite s c k = .error r) :
    (c.digit ≠ 0 ∧ r = ⟨.invalidWriteMode, some (k : Int)⟩) ∨
    (c.digit = 0 ∧ ¬ s.mem.InBounds c.raw ∧ r = ⟨.outOfBounds, some c.raw⟩) := by
  unfold resolveWrite at h
  split at h
  · split at h
    · cases h
    · exact .inr ⟨‹_›, ‹_›, by simpa using h.symm⟩
  · exact .inl ⟨‹_›, by simpa using h.symm⟩

end Sys2Proof.Machine
end

