-- ==== Sys2Proof/Laws/Exec.lean ====
section
/-! SUPPORT. What each meaning can do, said once: the state it commits, or the fault it raises and why. Later proofs cite these
and do not unfold a meaning. -/

namespace Sys2Proof.Machine

/-- Why stage D stops at a read parameter: its raw value is no address. -/
def ReadFails (s : State) (p : ReadParam) (r : Raised) : Prop :=
  p.mode = .position ∧ ¬ s.mem.InBounds p.raw ∧ r = ⟨.outOfBounds, some p.raw⟩

/-- Why stage D stops at a write target: its mode digit, or its bounds. -/
def WriteFails (s : State) (c : WriteParam) (k : Nat) (r : Raised) : Prop :=
  (c.digit ≠ 0 ∧ r = ⟨.invalidWriteMode, some (k : Int)⟩) ∨
  (c.digit = 0 ∧ ¬ s.mem.InBounds c.raw ∧ r = ⟨.outOfBounds, some c.raw⟩)

/-- The state ADD and MUL commit (40_execution_loop.md R58 F). -/
theorem execBinary_completes (f : Int → Int → Int) {a b : ReadParam} {c : WriteParam} {s : State} {va vb : Int} {t : Nat}
    (ha : OperandIs s a va) (hb : OperandIs s b vb) (hc : TargetIs s c t) :
    execBinary f a b c s = .next ((memWrite s t (f va vb)).advance 4) := by
  unfold execBinary
  rw [(resolveRead_eq_ok_iff s a va).mpr ha, (resolveRead_eq_ok_iff s b vb).mpr hb,
    (resolveWrite_eq_ok_iff s c 3 t).mpr hc]
  rfl

/-- Everything ADD and MUL can do. -/
theorem execBinary_cases {f : Int → Int → Int} {a b : ReadParam} {c : WriteParam} {s u : State}
    (h : execBinary f a b c s = .next u) :
    (∃ va vb t, OperandIs s a va ∧ OperandIs s b vb ∧ TargetIs s c t ∧ u = (memWrite s t (f va vb)).advance 4) ∨
    (∃ r, u = s.takeFault r ∧
      (ReadFails s a r ∨ (∃ va, OperandIs s a va ∧ ReadFails s b r) ∨
        (∃ va vb, OperandIs s a va ∧ OperandIs s b vb ∧ WriteFails s c 3 r))) := by
  unfold execBinary at h
  cases ha : resolveRead s a with
  | error r =>
    rw [ha] at h
    exact .inr ⟨r, by simpa using h.symm, .inl (resolveRead_eq_error ha)⟩
  | ok va =>
    have oa := (resolveRead_eq_ok_iff s a va).mp ha
    cases hb : resolveRead s b with
    | error r =>
      rw [ha, hb] at h
      exact .inr ⟨r, by simpa using h.symm, .inr (.inl ⟨va, oa, resolveRead_eq_error hb⟩)⟩
    | ok vb =>
      have ob := (resolveRead_eq_ok_iff s b vb).mp hb
      cases hc : resolveWrite s c 3 with
      | error r =>
        rw [ha, hb, hc] at h
        exact .inr ⟨r, by simpa using h.symm, .inr (.inr ⟨va, vb, oa, ob, resolveWrite_eq_error hc⟩)⟩
      | ok t =>
        rw [ha, hb, hc] at h
        exact .inl ⟨va, vb, t, oa, ob, (resolveWrite_eq_ok_iff s c 3 t).mp hc, by simpa using h.symm⟩

/-- The state IN commits. -/
theorem execIn_completes {c : WriteParam} {s : State} {t : Nat} {x : Int} {rest : List Int} (hc : TargetIs s c t)
    (hq : s.inq = x :: rest) : execIn c s = .next (((memWrite s t x).popInput).advance 2) := by
  unfold execIn headInput
  rw [(resolveWrite_eq_ok_iff s c 1 t).mpr hc, hq]
  rfl

/-- Everything IN can do. -/
theorem execIn_cases {c : WriteParam} {s u : State} (h : execIn c s = .next u) :
    (∃ t x rest, TargetIs s c t ∧ s.inq = x :: rest ∧ u = ((memWrite s t x).popInput).advance 2) ∨
    (∃ r, u = s.takeFault r ∧
      (WriteFails s c 1 r ∨ (∃ t, TargetIs s c t ∧ s.inq = [] ∧ r = ⟨.inputExhausted, none⟩))) := by
  unfold execIn headInput at h
  cases hc : resolveWrite s c 1 with
  | error r =>
    rw [hc] at h
    exact .inr ⟨r, by simpa using h.symm, .inl (resolveWrite_eq_error hc)⟩
  | ok t =>
    have ot := (resolveWrite_eq_ok_iff s c 1 t).mp hc
    cases hq : s.inq with
    | nil =>
      rw [hc, hq] at h
      exact .inr ⟨⟨.inputExhausted, none⟩, by simpa using h.symm, .inr ⟨t, ot, rfl, rfl⟩⟩
    | cons x rest =>
      rw [hc, hq] at h
      exact .inl ⟨t, x, rest, ot, rfl, by simpa using h.symm⟩

/-- The state OUT commits. -/
theorem execOut_completes {a : ReadParam} {s : State} {va : Int} (ha : OperandIs s a va) :
    execOut a s = .next ((s.emit va).advance 2) := by
  unfold execOut
  rw [(resolveRead_eq_ok_iff s a va).mpr ha]
  rfl

/-- Everything OUT can do. -/
theorem execOut_cases {a : ReadParam} {s u : State} (h : execOut a s = .next u) :
    (∃ va, OperandIs s a va ∧ u = (s.emit va).advance 2) ∨ (∃ r, u = s.takeFault r ∧ ReadFails s a r) := by
  unfold execOut at h
  cases ha : resolveRead s a with
  | error r =>
    rw [ha] at h
    exact .inr ⟨r, by simpa using h.symm, resolveRead_eq_error ha⟩
  | ok va =>
    rw [ha] at h
    exact .inl ⟨va, (resolveRead_eq_ok_iff s a va).mp ha, by simpa using h.symm⟩

/-- The one thing HLT does. -/
theorem execHlt_eq (s : State) : execHlt s = .next (s.halt.advance 1) := rfl

/-- A meaning always answers a next state: a fault it raises is taken. -/
theorem settle_next (s : State) (e : Except Raised State) : ∃ t, settle s e = .next t := by
  cases e <;> exact ⟨_, rfl⟩

theorem exec_next (i : Instr) (s : State) : ∃ t, exec i s = .next t := by
  cases i with
  | add a b c => exact settle_next s _
  | mul a b c => exact settle_next s _
  | inp c => exact settle_next s _
  | out a => exact settle_next s _
  | hlt => exact ⟨_, execHlt_eq s⟩

/-- Everything an instruction can do, by constructor: it commits, or it takes a fault and changes nothing else. -/
theorem exec_cases {i : Instr} {s u : State} (h : exec i s = .next u) :
    (∃ a b c va vb t, i = .add a b c ∧ OperandIs s a va ∧ OperandIs s b vb ∧ TargetIs s c t ∧
        u = (memWrite s t (aluAdd va vb)).advance 4) ∨
    (∃ a b c va vb t, i = .mul a b c ∧ OperandIs s a va ∧ OperandIs s b vb ∧ TargetIs s c t ∧
        u = (memWrite s t (aluMul va vb)).advance 4) ∨
    (∃ c t x rest, i = .inp c ∧ TargetIs s c t ∧ s.inq = x :: rest ∧ u = ((memWrite s t x).popInput).advance 2) ∨
    (∃ a va, i = .out a ∧ OperandIs s a va ∧ u = (s.emit va).advance 2) ∨
    (i = .hlt ∧ u = s.halt.advance 1) ∨
    (∃ r, u = s.takeFault r) := by
  cases i with
  | add a b c =>
    obtain ⟨va, vb, t, ha, hb, hc, hu⟩ | ⟨r, hu, -⟩ := execBinary_cases (f := aluAdd) h
    · exact .inl ⟨a, b, c, va, vb, t, rfl, ha, hb, hc, hu⟩
    · exact .inr (.inr (.inr (.inr (.inr ⟨r, hu⟩))))
  | mul a b c =>
    obtain ⟨va, vb, t, ha, hb, hc, hu⟩ | ⟨r, hu, -⟩ := execBinary_cases (f := aluMul) h
    · exact .inr (.inl ⟨a, b, c, va, vb, t, rfl, ha, hb, hc, hu⟩)
    · exact .inr (.inr (.inr (.inr (.inr ⟨r, hu⟩))))
  | inp c =>
    obtain ⟨t, x, rest, hc, hq, hu⟩ | ⟨r, hu, -⟩ := execIn_cases h
    · exact .inr (.inr (.inl ⟨c, t, x, rest, rfl, hc, hq, hu⟩))
    · exact .inr (.inr (.inr (.inr (.inr ⟨r, hu⟩))))
  | out a =>
    obtain ⟨va, ha, hu⟩ | ⟨r, hu, -⟩ := execOut_cases h
    · exact .inr (.inr (.inr (.inl ⟨a, va, rfl, ha, hu⟩)))
    · exact .inr (.inr (.inr (.inr (.inr ⟨r, hu⟩))))
  | hlt =>
    refine .inr (.inr (.inr (.inr (.inl ⟨rfl, ?_⟩))))
    simpa [exec, execHlt] using h.symm

end Sys2Proof.Machine
end

