-- ==== Sys2Proof/Laws/Step.lean ====
section
/-! SUPPORT. What the fetch and one step can do, said once (40_execution_loop.md R58). -/

namespace Sys2Proof.Machine

/-! ## Stages A to C -/

theorem decodeStage_eq_ok {w : Int} {h : Head} : decodeStage w = .ok h ↔ decodeWord w = .ok h := by
  unfold decodeStage
  cases decodeWord w <;> simp

theorem decodeStage_eq_error {w : Int} {r : Raised} (h : decodeStage w = .error r) :
    (∃ e, decodeWord w = .error e) ∧ r = ⟨.decodeError, some w⟩ := by
  unfold decodeStage at h
  split at h
  · cases h
  · exact ⟨⟨_, ‹_›⟩, by simpa using h.symm⟩

/-- A parameter cell. -/
theorem fetchParam_eq (s : State) (k : Nat) :
    fetchParam s k =
      if s.ip + k < s.mem.size then .ok (s.mem.get (s.ip + k))
      else .error ⟨.outOfBounds, some ((s.ip + k : Nat) : Int)⟩ :=
  memRead_nat s (s.ip + k)

/-- Stage C delivers the instruction whose parameters are the cells after the word. -/
theorem fetchParams_eq_ok {s : State} {h : Head} {i : Instr} (hf : fetchParams s h = .ok i) :
    i.head = h ∧ (∀ k, 1 ≤ k → k ≤ h.opcode.nparams → s.ip + k < s.mem.size) ∧
      i.params = (List.range h.opcode.nparams).map fun j => s.mem.get (s.ip + (j + 1)) := by
  cases h with
  | add a b c =>
    simp only [fetchParams, fetchParam_eq] at hf
    split at hf
    · split at hf
      · split at hf
        · cases hf
          refine ⟨rfl, fun k h1 h2 => ?_, rfl⟩
          have : k ≤ 3 := h2
          omega
        · cases hf
      · cases hf
    · cases hf
  | mul a b c =>
    simp only [fetchParams, fetchParam_eq] at hf
    split at hf
    · split at hf
      · split at hf
        · cases hf
          refine ⟨rfl, fun k h1 h2 => ?_, rfl⟩
          have : k ≤ 3 := h2
          omega
        · cases hf
      · cases hf
    · cases hf
  | inp c =>
    simp only [fetchParams, fetchParam_eq] at hf
    split at hf
    · cases hf
      refine ⟨rfl, fun k h1 h2 => ?_, rfl⟩
      have : k ≤ 1 := h2
      omega
    · cases hf
  | out a =>
    simp only [fetchParams, fetchParam_eq] at hf
    split at hf
    · cases hf
      refine ⟨rfl, fun k h1 h2 => ?_, rfl⟩
      have : k ≤ 1 := h2
      omega
    · cases hf
  | hlt =>
    cases hf
    refine ⟨rfl, fun k h1 h2 => ?_, rfl⟩
    have : k ≤ 0 := h2
    omega

/-- Stage C fails at the lowest parameter cell that is not in memory (60_exceptions.md R83, priority 5). -/
theorem fetchParams_eq_error {s : State} {h : Head} {r : Raised} (hf : fetchParams s h = .error r) :
    ∃ k, 1 ≤ k ∧ k ≤ h.opcode.nparams ∧ s.mem.size ≤ s.ip + k ∧ (∀ j, 1 ≤ j → j < k → s.ip + j < s.mem.size) ∧
      r = ⟨.outOfBounds, some ((s.ip + k : Nat) : Int)⟩ := by
  have three : ∀ (g : Int → Int → Int → Instr),
      (do let p1 ← fetchParam s 1; let p2 ← fetchParam s 2; let p3 ← fetchParam s 3; pure (g p1 p2 p3)) = .error r →
      ∃ k, 1 ≤ k ∧ k ≤ 3 ∧ s.mem.size ≤ s.ip + k ∧ (∀ j, 1 ≤ j → j < k → s.ip + j < s.mem.size) ∧
        r = ⟨.outOfBounds, some ((s.ip + k : Nat) : Int)⟩ := by
    intro g hg
    simp only [fetchParam_eq] at hg
    split at hg
    · split at hg
      · split at hg
        · cases hg
        · exact ⟨3, by omega, by omega, by omega, fun j h1 h2 => by omega, by simpa using hg.symm⟩
      · exact ⟨2, by omega, by omega, by omega, fun j h1 h2 => by omega, by simpa using hg.symm⟩
    · exact ⟨1, by omega, by omega, by omega, fun j h1 h2 => by omega, by simpa using hg.symm⟩
  have one : ∀ (g : Int → Instr), (do let p1 ← fetchParam s 1; pure (g p1)) = .error r →
      ∃ k, 1 ≤ k ∧ k ≤ 1 ∧ s.mem.size ≤ s.ip + k ∧ (∀ j, 1 ≤ j → j < k → s.ip + j < s.mem.size) ∧
        r = ⟨.outOfBounds, some ((s.ip + k : Nat) : Int)⟩ := by
    intro g hg
    simp only [fetchParam_eq] at hg
    split at hg
    · cases hg
    · exact ⟨1, by omega, by omega, by omega, fun j h1 h2 => by omega, by simpa using hg.symm⟩
  cases h with
  | add a b c => exact three (fun p1 p2 p3 => .add ⟨a, p1⟩ ⟨b, p2⟩ ⟨c, p3⟩) hf
  | mul a b c => exact three (fun p1 p2 p3 => .mul ⟨a, p1⟩ ⟨b, p2⟩ ⟨c, p3⟩) hf
  | inp c => exact one (fun p1 => .inp ⟨c, p1⟩) hf
  | out a => exact one (fun p1 => .out ⟨a, p1⟩) hf
  | hlt => cases hf

/-- Everything a successful fetch says. -/
theorem fetchInstr_eq_ok {s : State} {i : Instr} (h : fetchInstr s = .ok i) :
    decodeWord (s.mem.get s.ip) = .ok i.head ∧ s.ip + i.length ≤ s.mem.size ∧
      i.params = (List.range i.opcode.nparams).map fun j => s.mem.get (s.ip + (j + 1)) := by
  unfold fetchInstr at h
  rw [memRead_nat] at h
  split at h
  · rename_i hip
    simp only [stage_ok] at h
    cases hd : decodeStage (s.mem.get s.ip) with
    | error r => rw [hd] at h; cases h
    | ok hh =>
      rw [hd, stage_ok] at h
      obtain ⟨h1, h2, h3⟩ := fetchParams_eq_ok h
      have ho : hh.opcode = i.opcode := by rw [← h1, Instr.head_opcode]
      rw [ho] at h2 h3
      refine ⟨h1 ▸ decodeStage_eq_ok.mp hd, ?_, h3⟩
      have hl : i.length = i.opcode.nparams + 1 := rfl
      by_cases hn : i.opcode.nparams = 0
      · omega
      · have := h2 i.opcode.nparams (by omega) (le_refl _)
        omega
  · cases h

/-- Why a fetch fails: stage A, stage B, or stage C at the lowest cell missing. -/
def FetchFails (s : State) (r : Raised) : Prop :=
  (s.mem.size ≤ s.ip ∧ r = ⟨.outOfBounds, some (s.ip : Int)⟩) ∨
  (s.ip < s.mem.size ∧ (∃ e, decodeWord (s.mem.get s.ip) = .error e) ∧ r = ⟨.decodeError, some (s.mem.get s.ip)⟩) ∨
  (s.ip < s.mem.size ∧ ∃ h k, decodeWord (s.mem.get s.ip) = .ok h ∧ 1 ≤ k ∧ k ≤ h.opcode.nparams ∧
    s.mem.size ≤ s.ip + k ∧ (∀ j, 1 ≤ j → j < k → s.ip + j < s.mem.size) ∧
    r = ⟨.outOfBounds, some ((s.ip + k : Nat) : Int)⟩)

theorem fetchInstr_eq_error {s : State} {r : Raised} (h : fetchInstr s = .error r) : FetchFails s r := by
  unfold fetchInstr at h
  rw [memRead_nat] at h
  split at h
  · rename_i hip
    simp only [stage_ok] at h
    cases hd : decodeStage (s.mem.get s.ip) with
    | error r' =>
      rw [hd, stage_error] at h
      obtain ⟨he, hr⟩ := decodeStage_eq_error hd
      cases h
      exact .inr (.inl ⟨hip, he, hr⟩)
    | ok hh =>
      rw [hd, stage_ok] at h
      obtain ⟨k, h1, h2, h3, h4, hr⟩ := fetchParams_eq_error h
      exact .inr (.inr ⟨hip, hh, k, decodeStage_eq_ok.mp hd, h1, h2, h3, h4, hr⟩)
  · exact .inl ⟨by omega, by simpa using h.symm⟩

/-- Stages A and B passed: the rest of the fetch is stage C. -/
theorem fetchInstr_of_decoded {s : State} {h : Head} (hip : s.ip < s.mem.size)
    (hd : decodeWord (s.mem.get s.ip) = .ok h) : fetchInstr s = fetchParams s h := by
  unfold fetchInstr
  rw [memRead_nat, if_pos hip, stage_ok, decodeStage_eq_ok.mpr hd, stage_ok]

/-- Stage B stops: DecodeError with the word (60_exceptions.md R77). -/
theorem fetchInstr_of_rejected {s : State} {e : DecodeReject} (hip : s.ip < s.mem.size)
    (hd : decodeWord (s.mem.get s.ip) = .error e) : fetchInstr s = .error ⟨.decodeError, some (s.mem.get s.ip)⟩ := by
  unfold fetchInstr decodeStage
  rw [memRead_nat, if_pos hip, stage_ok, hd]
  rfl

/-- Stage A stops: the fetch is past the end of memory. -/
theorem fetchInstr_outside {s : State} (hip : s.mem.size ≤ s.ip) :
    fetchInstr s = .error ⟨.outOfBounds, some (s.ip : Int)⟩ := by
  unfold fetchInstr
  rw [memRead_nat, if_neg (Nat.not_lt.mpr hip)]
  rfl

/-! ## Placing cells where the next step fetches (notes/assumptions/6.md) -/

@[simp] theorem Memory.setAll_size (m : Memory) (a : Nat) (cells : List Int) : (m.setAll a cells).size = m.size := by
  induction cells generalizing m a with
  | nil => rfl
  | cons v rest ih => simp [Memory.setAll, ih]

theorem Memory.wf_setAll {m : Memory} (a : Nat) (cells : List Int) (h : m.wf = true) : (m.setAll a cells).wf = true := by
  induction cells generalizing m a with
  | nil => exact h
  | cons v rest ih => exact ih (a + 1) (Memory.wf_set a v h)

theorem Memory.get_setAll_below (m : Memory) (cells : List Int) {a b : Nat} (h : b < a) :
    (m.setAll a cells).get b = m.get b := by
  induction cells generalizing m a with
  | nil => rfl
  | cons v rest ih =>
    unfold Memory.setAll
    rw [ih (m.set a v) (by omega), Memory.get_set_other m v (by omega)]

/-- The placed cells are the cells read back. -/
theorem Memory.cellsFrom_setAll (m : Memory) (cells : List Int) (a : Nat) (h : a + cells.length ≤ m.size) :
    (m.setAll a cells).cellsFrom a cells.length = cells := by
  induction cells generalizing m a with
  | nil => rfl
  | cons v rest ih =>
    have hr : a + 1 + rest.length ≤ m.size := by simpa [Nat.add_assoc, Nat.add_comm 1] using h
    simp only [Memory.setAll, List.length_cons, Memory.cellsFrom]
    rw [if_pos (by simp; omega), Memory.get_setAll_below _ _ (Nat.lt_succ_self a), Memory.get_set_self m a v (by omega),
      ih (m.set a v) (a + 1) (by simpa using hr)]

theorem placeCells_wf {s : State} (cells : List Int) (h : s.mem.wf = true) : (placeCells s cells).mem.wf = true :=
  Memory.wf_setAll _ _ (Memory.wf_atLeast _ h)

theorem placeCells_running (s : State) (cells : List Int) : (placeCells s cells).Running := ⟨rfl, rfl⟩

/-- A state with placed cells fetches exactly those cells. -/
theorem cellsFrom_placeCells (s : State) (cells : List Int) :
    (placeCells s cells).mem.cellsFrom (placeCells s cells).ip cells.length = cells :=
  Memory.cellsFrom_setAll _ cells s.ip (Nat.le_max_right _ _)

/-! ## One step -/

/-- A step in a running state, with its two endings. -/
theorem step_of_running {s : State} (h : s.Running) :
    step s = match fetchInstr s with
      | .error r => .next (s.takeFault r)
      | .ok i => exec i s := by
  unfold step
  rw [if_neg (by simp [h.1]), h.2]
  rfl

/-- Everything a step that answers a next state can have done. -/
theorem step_cases {s t : State} (h : step s = .next t) :
    s.Running ∧ ((∃ r, FetchFails s r ∧ t = s.takeFault r) ∨ (∃ i, fetchInstr s = .ok i ∧ exec i s = .next t)) := by
  have hr : s.Running := by
    unfold step at h
    split at h
    · cases h
    · rename_i hh
      split at h
      · cases h
      · rename_i hf
        exact ⟨by simpa using hh, hf⟩
  refine ⟨hr, ?_⟩
  rw [step_of_running hr] at h
  cases hf : fetchInstr s with
  | error r =>
    rw [hf] at h
    exact .inl ⟨r, fetchInstr_eq_error hf, by simpa using h.symm⟩
  | ok i =>
    rw [hf] at h
    exact .inr ⟨i, rfl, h⟩

/-- A step in a terminal state is no step. -/
theorem step_of_terminal {s t : State} (h : s.Terminal) : step s ≠ .next t := by
  intro hs
  obtain ⟨⟨h1, h2⟩, -⟩ := step_cases hs
  simp [State.Terminal, h1, h2] at h

/-- A step past the end of memory is OutOfBounds of the pointer (R83, priority 1). -/
theorem step_outside {s : State} (h : s.Running) (hip : s.mem.size ≤ s.ip) :
    step s = .next (s.takeFault ⟨.outOfBounds, some (s.ip : Int)⟩) := by
  rw [step_of_running h, fetchInstr_outside hip]

/-- The step of an instruction that stores: one cell takes the value, and `ip` advances (10_state.md R15). -/
theorem step_stores {s : State} {i : Instr} {c : WriteParam} {x : Nat} {v : Int} (hr : s.Running)
    (hi : fetchInstr s = .ok i) (hi' : storeTarget i = some c) (hc : TargetIs s c x) (hv : StoresValue s i v) :
    ∃ t, step s = .next t ∧ t.Running ∧ t.ip = s.ip + i.length ∧ t.mem = s.mem.set x v := by
  rw [step_of_running hr, hi]
  cases i with
  | add a b c' =>
    cases hi'
    obtain ⟨p, q, ha, hb, rfl⟩ := hv
    exact ⟨(memWrite s x (aluAdd p q)).advance 4, execBinary_completes aluAdd ha hb hc, hr, rfl, rfl⟩
  | mul a b c' =>
    cases hi'
    obtain ⟨p, q, ha, hb, rfl⟩ := hv
    exact ⟨(memWrite s x (aluMul p q)).advance 4, execBinary_completes aluMul ha hb hc, hr, rfl, rfl⟩
  | inp c' =>
    cases hi'
    obtain ⟨rest, hq⟩ := List.head?_eq_some_iff.mp hv
    exact ⟨((memWrite s x v).popInput).advance 2, execIn_completes hc hq, hr, rfl, rfl⟩
  | out a => cases hi'
  | hlt => cases hi'

theorem stepState_of_next {s t : State} (h : step s = .next t) : stepState s = t := by
  simp [stepState, h]

/-- A state is running or terminal. -/
theorem running_or_terminal (s : State) : s.Running ∨ s.Terminal := by
  by_cases h : s.halted = true
  · exact .inr (.inl h)
  · by_cases hf : s.fault = none
    · exact .inl ⟨by simpa using h, hf⟩
    · exact .inr (.inr hf)

theorem not_running_and_terminal {s : State} (h : s.Running) (ht : s.Terminal) : False := by
  simp [State.Terminal, h.1, h.2] at ht

/-- No step is taken in a terminal state. -/
theorem stepState_terminal {s : State} (h : s.Terminal) : stepState s = s := by
  unfold stepState
  cases hs : step s with
  | next t => exact absurd hs (step_of_terminal h)
  | fault _ => rfl
  | refused _ => rfl

/-! ## Repeated steps -/

theorem runSteps_terminal {s : State} (n : Nat) (h : s.Terminal) : runSteps n s = s := by
  cases n with
  | zero => rfl
  | succ n => simp [runSteps, h]

theorem runSteps_running {s : State} (n : Nat) (h : s.Running) : runSteps (n + 1) s = runSteps n (stepState s) := by
  conv_lhs => unfold runSteps
  rw [if_neg fun ht => not_running_and_terminal h ht]

end Sys2Proof.Machine
end

