-- ==== Sys2Proof/Laws/Commands.lean ====
section
/-! SUPPORT. What the guard of the host commands does, and a host command in a running and in a terminal state
(70_reset_and_hazards.md R97 to R99). -/

namespace Sys2Proof.Machine

theorem guarded_running {s : State} (h : s.Running) (go : State × Status) : guarded s go = go := by
  unfold guarded
  rw [if_neg (by simp [h.1]), h.2]

/-- A terminal machine is left as it is, whatever was asked of it. -/
theorem guarded_terminal {s : State} (h : s.Terminal) (go go' : State × Status) :
    guarded s go = guarded s go' ∧ (guarded s go).1 = s := by
  unfold guarded
  by_cases hh : s.halted = true
  · simp [hh]
  · cases hf : s.fault with
    | none => simp [State.Terminal, hh, hf] at h
    | some k => simp [hh]

theorem hostEnq_running {s : State} (h : s.Running) (v : Int) : hostEnq v s = (s.enqueue v, .ok) := guarded_running h _

theorem hostStep_running {s : State} (h : s.Running) : hostStep s = (stepState s, (stepState s).statusOf) :=
  guarded_running h _

theorem hostRun_running {s : State} (h : s.Running) (inputs : List Int) :
    hostRun inputs s = (run (s.enqueueAll inputs), (run (s.enqueueAll inputs)).statusOf) := guarded_running h _

theorem hostEnq_terminal {s : State} (h : s.Terminal) (v : Int) : (hostEnq v s).1 = s :=
  (guarded_terminal h _ (s, .ok)).2

theorem hostStep_terminal {s : State} (h : s.Terminal) : (hostStep s).1 = s := (guarded_terminal h _ (s, .ok)).2

theorem hostRun_terminal {s : State} (h : s.Terminal) (inputs : List Int) : (hostRun inputs s).1 = s :=
  (guarded_terminal h _ (s, .ok)).2

/-- Enqueueing a list appends it (R99). -/
theorem enqueueAll_eq (s : State) (vs : List Int) : s.enqueueAll vs = { s with inq := s.inq ++ vs } := by
  induction vs generalizing s with
  | nil => simp [State.enqueueAll]
  | cons v vs ih =>
    have : s.enqueueAll (v :: vs) = (s.enqueue v).enqueueAll vs := rfl
    rw [this, ih]
    simp [State.enqueue]

end Sys2Proof.Machine
end

