-- ==== Sys2Proof/Laws/PerInstr.lean ====
section
/-! SUPPORT. Statements about every instruction as syntax, one lemma per constructor. -/

namespace Sys2Proof.Laws.EncodedShape

/-- The encoding of an instruction has as many cells as its row says, and its first cell selects that row: it is not
negative and `w mod 100` is the row's number (30_encoding.md R42, R45, R57). -/
def Statement (i : Instr) : Prop :=
  (encode i).length = i.length ∧ 0 ≤ i.head.word ∧ i.head.word % 100 = (i.opcode.number : Int)

theorem add (a b : ReadParam) (c : WriteParam) : Statement (.add a b c) :=
  ⟨rfl, Int.natCast_nonneg _, by simp only [Instr.head, Head.word, Instr.opcode, Opcode.number]; omega⟩

theorem mul (a b : ReadParam) (c : WriteParam) : Statement (.mul a b c) :=
  ⟨rfl, Int.natCast_nonneg _, by simp only [Instr.head, Head.word, Instr.opcode, Opcode.number]; omega⟩

theorem inp (c : WriteParam) : Statement (.inp c) :=
  ⟨rfl, Int.natCast_nonneg _, by simp only [Instr.head, Head.word, Instr.opcode, Opcode.number]; omega⟩

theorem out (a : ReadParam) : Statement (.out a) :=
  ⟨rfl, Int.natCast_nonneg _, by simp only [Instr.head, Head.word, Instr.opcode, Opcode.number]; omega⟩

theorem hlt : Statement .hlt := ⟨rfl, Int.natCast_nonneg _, by decide⟩

end Sys2Proof.Laws.EncodedShape
end

