-- ==== Sys2Proof/Tests/Slice0.lean ====
section
/-! SUPPORT. The model's own tests and the witnesses of the statements' hypotheses. Every expected result is from
95_test_vectors.md (its id in the name or the comment) or worked out by hand from the rule named. -/

namespace Sys2Proof.Tests

open Sys2Proof Sys2Proof.Machine

/-- A machine after LOAD(image) and an ENQ of each input. -/
def machine (image inputs : List Int) : State := { State.load image with inq := inputs }

/-! ## WellFormed: each check refuses an ill-formed term -/

theorem test_wf_refuses_add_mode_ten : Instr.wf (.add (.pos 0) (.imm 0) ⟨10, 0⟩) = false := by decide
theorem test_wf_refuses_mul_mode_ten : Instr.wf (.mul (.pos 0) (.imm 0) ⟨10, 0⟩) = false := by decide
theorem test_wf_refuses_in_mode_ten : Instr.wf (.inp ⟨10, 0⟩) = false := by decide
theorem test_wf_accepts_mode_nine : Instr.wf (.inp ⟨9, -1⟩) = true := by decide

/-! ## Decoding: words written out from 30_encoding.md R43, R46 -/

/-- V-D1, V-D6, V-D7, V-D8: digit 2 is parameter 1, digit 3 parameter 2, missing digits 0. -/
theorem test_decode_add : decodeWord 1 = .ok (.add .position .position 0) ∧
    decodeWord 101 = .ok (.add .immediate .position 0) ∧ decodeWord 1001 = .ok (.add .position .immediate 0) ∧
    decodeWord 1101 = .ok (.add .immediate .immediate 0) := by decide

/-- V-D2, V-D9. -/
theorem test_decode_mul : decodeWord 2 = .ok (.mul .position .position 0) ∧
    decodeWord 102 = .ok (.mul .immediate .position 0) ∧ decodeWord 1002 = .ok (.mul .position .immediate 0) := by decide

/-- V-D11 to V-D13: a write mode is not checked at decode. -/
theorem test_decode_write_modes : decodeWord 90001 = .ok (.add .position .position 9) ∧
    decodeWord 3 = .ok (.inp 0) ∧ decodeWord 103 = .ok (.inp 1) ∧ decodeWord 903 = .ok (.inp 9) := by decide

/-- V-D4, V-D10, V-D5. -/
theorem test_decode_out_hlt : decodeWord 4 = .ok (.out .position) ∧ decodeWord 104 = .ok (.out .immediate) ∧
    decodeWord 99 = .ok .hlt := by decide

/-- V-D14. -/
theorem test_decode_unknown : decodeWord 0 = .error .unknownOpcode ∧ decodeWord 5 = .error .unknownOpcode ∧
    decodeWord 98 = .error .unknownOpcode ∧ decodeWord 100 = .error .unknownOpcode ∧
    decodeWord 12345 = .error .unknownOpcode := by decide

/-- V-D15, V-D20. -/
theorem test_decode_read_modes : decodeWord 201 = .error .illegalReadMode ∧
    decodeWord 2001 = .error .illegalReadMode ∧ decodeWord 904 = .error .illegalReadMode ∧
    decodeWord 1234501 = .error .illegalReadMode := by decide

/-- V-D16: `-1` is no halt, `-101` no add. -/
theorem test_decode_negative : decodeWord (-1) = .error .negativeWord ∧ decodeWord (-101) = .error .negativeWord := by
  decide

/-- V-D17 to V-D19. -/
theorem test_decode_surplus : decodeWord 1104 = .ok (.out .immediate) ∧ decodeWord 10004 = .ok (.out .position) ∧
    decodeWord 100099 = .ok .hlt ∧ decodeWord 1001001 = .ok (.add .position .immediate 0) := by decide

/-- P3's listing assembles to P3's image (R54). -/
theorem test_assemble_p3 :
    assembleLines [.instr (.inp (.pos 15)), .instr (.inp (.pos 16)), .instr (.mul (.pos 15) (.pos 16) (.pos 17)),
      .instr (.add (.pos 17) (.imm 7) (.pos 17)), .instr (.out (.pos 17)), .instr .hlt, .data [0, 0, 0]] =
    [3, 15, 3, 16, 2, 15, 16, 17, 1001, 17, 7, 17, 4, 17, 99, 0, 0, 0] := by decide

/-! ## The host's table words: each row's word runs as the first instruction after reset -/

theorem test_table_words : decodeTableWord 8 1 = some (.add (.pos 0) (.pos 0) (.pos 0)) ∧
    decodeTableWord 8 2 = some (.mul (.pos 0) (.pos 0) (.pos 0)) ∧ decodeTableWord 8 3 = some (.inp (.pos 0)) ∧
    decodeTableWord 8 4 = some (.out (.pos 0)) ∧ decodeTableWord 8 99 = some .hlt ∧ decodeTableWord 8 5 = none := by
  decide

theorem test_fetch_word_add :
    step (State.reset.withFetchWord 8 1) = .next { State.load [2, 0, 0, 0] with ip := 4 } := rfl
theorem test_fetch_word_out :
    step (State.reset.withFetchWord 8 4) = .next { State.load [4, 0, 0, 0] with ip := 2, outlog := [(0, 4)] } := rfl
theorem test_fetch_word_hlt :
    step (State.reset.withFetchWord 8 99) = .next { State.load [99, 0, 0, 0] with ip := 1, halted := true } := rfl

/-- A placed word decodes to exactly the instruction the host is told, and the step runs it. -/
theorem test_fetch_word_runs_the_decoded (s : State) (nbits w : Nat) (i : Instr)
    (h : decodeTableWord nbits w = some i) :
    ∃ rest, decode ((s.withFetchWord nbits w).mem.cellsFrom (s.withFetchWord nbits w).ip 4) = .ok (i, rest) := by
  unfold decodeTableWord at h
  have hc := cellsFrom_placeCells s (tableWordCells w)
  rw [show (s.withFetchWord nbits w).mem.cellsFrom (s.withFetchWord nbits w).ip 4 = tableWordCells w from hc]
  split at h
  · rename_i j rest hd
    cases h
    exact ⟨rest, hd⟩
  · cases h

/-! ## One step on a small memory -/

/-- S2. -/
theorem test_add_s2 : step (machine [1, 0, 0, 0, 99] []) = .next { machine [2, 0, 0, 0, 99] [] with ip := 4 } := rfl
/-- V-ADD6: the add overwrites its own word and still advances by 4. -/
theorem test_add_over_itself :
    step (machine [101, 3, 0, 0, 99] []) = .next { machine [104, 3, 0, 0, 99] [] with ip := 4 } := rfl
/-- S3: parameter order and the write target. -/
theorem test_mul_s3 : step (machine [2, 3, 0, 3, 99] []) = .next { machine [2, 3, 0, 6, 99] [] with ip := 4 } := rfl
/-- V-MUL8: no truncation at 2^64. -/
theorem test_mul_wide : step (machine [1102, 4294967296, 4294967296, 0, 99] []) =
    .next { machine [18446744073709551616, 4294967296, 4294967296, 0, 99] [] with ip := 4 } := rfl
/-- V-IN4, first step: the head of the queue is taken, the rest keeps its order. -/
theorem test_in_fifo :
    step (machine [3, 0, 3, 1, 99] [5, 6, 7]) = .next { machine [5, 0, 3, 1, 99] [6, 7] with ip := 2 } := rfl
/-- S7: nothing is written. -/
theorem test_in_empty : step (machine [3, 0, 99] []) =
    .next { machine [3, 0, 99] [] with fault := some .inputExhausted } := rfl
/-- V-A1: one level of indirection; the log holds the address of the OUT. -/
theorem test_out_position :
    step (machine [4, 3, 99, 77] []) = .next { machine [4, 3, 99, 77] [] with ip := 2, outlog := [(0, 77)] } := rfl
/-- V-A2. -/
theorem test_out_immediate :
    step (machine [104, -5, 99] []) = .next { machine [104, -5, 99] [] with ip := 2, outlog := [(0, -5)] } := rfl
/-- S1, V-H1. -/
theorem test_hlt_s1 : step (machine [99] []) = .next { machine [99] [] with ip := 1, halted := true } := rfl

/-! ## Faults and their priority (V-A, V-F vectors) -/

/-- V-A15: the reset state has no cell. -/
theorem test_reset_fetch_faults :
    step State.reset = .next { State.reset with fault := some .outOfBounds, faultInfo := some 0 } := rfl
/-- V-A4, V-A5: no indexing from the end, no growth. -/
theorem test_bounds : firstFault (machine [4, -1, 99] []) = some ⟨.outOfBounds, some (-1)⟩ ∧
    step (machine [1, 0, 0, 5, 99] []) =
      .next { machine [1, 0, 0, 5, 99] [] with fault := some .outOfBounds, faultInfo := some 5 } := ⟨by decide, rfl⟩
/-- V-F2: decode before parameter fetch. -/
theorem test_priority_decode_first :
    step (machine [201] []) = .next { machine [201] [] with fault := some .decodeError, faultInfo := some 201 } := rfl
/-- V-F6, V-F7: parameters in order; mode before bounds. -/
theorem test_priority_write_mode :
    step (machine [10001, 9, 0, 0, 99] []) =
      .next { machine [10001, 9, 0, 0, 99] [] with fault := some .outOfBounds, faultInfo := some 9 } ∧
    step (machine [10001, 0, 0, 77, 99] []) =
      .next { machine [10001, 0, 0, 77, 99] [] with fault := some .invalidWriteMode, faultInfo := some 3 } := ⟨rfl, rfl⟩

/-! ## Host commands (V-C vectors) -/

/-- V-C1, V-C4. -/
theorem test_commands_halt : hostRun [] (State.load [99]) = ({ State.load [99] with ip := 1, halted := true }, .halted) ∧
    hostPeek 1 (State.load [99]) = .status (.fault .outOfBounds) ∧ hostPeek 0 (State.load [99]) = .cell 99 := by decide
/-- V-C2. -/
theorem test_commands_fault :
    hostRun [] (State.load [3, 0, 99]) =
      ({ State.load [3, 0, 99] with fault := some .inputExhausted }, .fault .inputExhausted) ∧
    (hostRun [5] (State.load [3, 0, 99])).1.mem = Memory.ofList [5, 0, 99] := by decide

/-! ## Witnesses: a concrete state and operands that meet each statement's hypotheses together -/

/-- An ADD about to store into its own next instruction (P2). -/
abbrev p2 : State := machine [1101, 100, -1, 4, 0] []
/-- A machine about to emit, in the middle of a run (S5 after its first step). -/
abbrev s5mid : State := { machine [42, 0, 4, 0, 99] [] with ip := 2 }
/-- A halted machine (S1's end) and a faulted one (S7's end). -/
abbrev s1end : State := { machine [99] [] with ip := 1, halted := true }
abbrev s7end : State := { machine [3, 0, 99] [] with fault := some .inputExhausted }

theorem witness_DecodeInvertsEncode : Instr.wf (.add (.pos (-1)) (.imm 5) ⟨9, 0⟩) = true ∧ Instr.wf (.out (.imm 0)) = true := by
  decide
theorem witness_DecodedCellsAreTheEncoding :
    decode [1001001, 1, 2, 3, 4] = .ok (.add (.pos 1) (.imm 2) (.pos 3), [4]) := by decide
theorem witness_FieldsAreDecimalDigits : decodeWord ((91102 : Nat) : Int) = .ok (.mul .immediate .immediate 9) ∧
    decodeWord ((103 : Nat) : Int) = .ok (.inp 1) ∧ decodeWord ((104 : Nat) : Int) = .ok (.out .immediate) := by decide
theorem witness_UnrecognizedOpcodeIsDecodeError : (0 : Int) ≤ 98 ∧ (98 : Int) % 100 ≠ 99 ∧ (98 : Int) % 100 ≠ 4 ∧
    (98 : Int) % 100 ≠ 3 ∧ (98 : Int) % 100 ≠ 2 ∧ (98 : Int) % 100 ≠ 1 ∧ (machine [98] []).Running ∧
    (machine [98] []).ip < (machine [98] []).mem.size ∧ (machine [98] []).mem.get 0 = 98 := by decide
theorem witness_SurplusDigitsIgnored : 90001 % 100 = Opcode.add.number ∧ 904 % 100 = Opcode.out.number ∧
    99 % 100 = Opcode.hlt.number := by decide
theorem witness_LengthIsDecidedByOpcodeField : fetchInstr (machine [99] []) = .ok .hlt ∧
    fetchInstr s5mid = .ok (.out (.pos 0)) ∧
    fetchInstr p2 = .ok (.add (.imm 100) (.imm (-1)) (.pos 4)) ∧
    fetchInstr (machine [1, 0, 0, 0] []) = .ok (.add (.pos 0) (.pos 0) (.pos 0)) := by decide
/-- Each clause at its boundary: -1 and N outside, 0 and N - 1 inside. -/
theorem witness_MemReadIsBoundsChecked : memRead (machine [7, 8] []) (-1) = .error ⟨.outOfBounds, some (-1)⟩ ∧
    memRead (machine [7, 8] []) 2 = .error ⟨.outOfBounds, some 2⟩ ∧ memRead (machine [7, 8] []) 0 = .ok 7 ∧
    memRead (machine [7, 8] []) 1 = .ok 8 := by decide
theorem witness_MemWriteReplacesOneCell : memWrite (machine [7, 8] []) 1 0 = machine [7, 0] [] ∧
    memWrite (machine [7, 8] []) 2 5 = machine [7, 8] [] := by decide
theorem witness_CanonicalMemoriesAreEqual : ((Memory.ofList [1, 5]).set 1 0).wf = true ∧
    (Memory.ofList [1, 0]).wf = true ∧ ((Memory.ofList [1, 5]).set 1 0).toList = (Memory.ofList [1, 0]).toList := by
  decide
theorem witness_PositionModeReadsTheCell :
    resolveRead (machine [7, 8] []) (.pos 2) = .error ⟨.outOfBounds, some 2⟩ ∧
    resolveRead (machine [7, 8] []) (.pos 1) = .ok 8 ∧ resolveRead (machine [7, 8] []) (.imm (-9)) = .ok (-9) := by decide
theorem witness_WriteTargetIsTheRawValue :
    resolveWrite (machine [7, 8] []) ⟨1, 2⟩ 3 = .error ⟨.invalidWriteMode, some 3⟩ ∧
    resolveWrite (machine [7, 8] []) ⟨0, 2⟩ 3 = .error ⟨.outOfBounds, some 2⟩ ∧
    resolveWrite (machine [7, 8] []) ⟨0, -1⟩ 3 = .error ⟨.outOfBounds, some (-1)⟩ ∧
    resolveWrite (machine [7, 8] []) ⟨0, 1⟩ 3 = .ok 1 := by decide
/-- A step that changes cell 4, its write target; and a command that is neither LOAD, STEP nor RUN. -/
theorem witness_OnlyStoresMutateMemory : step p2 = .next { machine [1101, 100, -1, 4, 99] [] with ip := 4 } ∧
    (Memory.ofList [1101, 100, -1, 4, 99]).get 4 ≠ p2.mem.get 4 ∧ Command.enq 1 ≠ .step :=
  ⟨rfl, by decide, by decide⟩
theorem witness_AddStoresTheSum : OperandIs p2 (.imm 100) 100 ∧ OperandIs p2 (.pos 2) (-1) ∧ TargetIs p2 (.pos 4) 4 := by
  unfold OperandIs TargetIs
  decide
theorem witness_MulStoresTheProduct :
    OperandIs p2 (.pos 4) 0 ∧ OperandIs p2 (.imm (-1)) (-1) ∧ TargetIs p2 (.pos 0) 0 := by
  unfold OperandIs TargetIs
  decide
theorem witness_InStoresTheHeadOfTheQueue : TargetIs (machine [3, 2, 0] [99, 1]) (.pos 2) 2 ∧
    (machine [3, 2, 0] [99, 1]).inq = 99 :: [1] := by
  unfold TargetIs
  decide
theorem witness_OutAppendsItsAddressAndOperand : OperandIs s5mid (.pos 0) 42 := by
  unfold OperandIs
  decide
/-- One completed and one faulting next state for each frame. -/
theorem witness_ArithmeticFrame :
    exec (.add (.imm 1) (.imm 2) (.pos 0)) p2 = .next { machine [3, 100, -1, 4, 0] [] with ip := 4 } ∧
    exec (.mul (.imm 1) (.imm 2) (.pos 5)) p2 = .next { p2 with fault := some .outOfBounds, faultInfo := some 5 } ∧
    resolveWrite p2 (.pos 0) 3 = .ok 0 ∧ resolveWrite p2 (.pos 5) 3 = .error ⟨.outOfBounds, some 5⟩ :=
  ⟨rfl, rfl, by decide, by decide⟩
theorem witness_InputFrame :
    exec (.inp (.pos 0)) (machine [3, 0, 99] [8]) = .next { machine [8, 0, 99] [] with ip := 2 } ∧
    exec (.inp (.pos 0)) (machine [3, 0, 99] []) = .next s7end ∧
    resolveWrite (machine [3, 0, 99] [8]) (.pos 0) 1 = .ok 0 ∧
    resolveWrite (machine [3, 0, 99] []) ⟨1, 0⟩ 1 = .error ⟨.invalidWriteMode, some 1⟩ := ⟨rfl, rfl, by decide, by decide⟩
theorem witness_NonStoringFrame :
    exec (.out (.pos 0)) s5mid = .next { s5mid with ip := 4, outlog := [(2, 42)] } ∧
    exec (.out (.pos 5)) s5mid = .next { s5mid with fault := some .outOfBounds, faultInfo := some 5 } ∧
    exec .hlt s5mid = .next { s5mid with ip := 3, halted := true } := ⟨rfl, rfl, rfl⟩
theorem witness_StepRunsTheDecodedInstruction : p2.Running ∧
    decode (p2.mem.cellsFrom p2.ip (Config.maxParams + 1)) = .ok (.add (.imm 100) (.imm (-1)) (.pos 4), []) ∧
    decode (s5mid.mem.cellsFrom s5mid.ip (Config.maxParams + 1)) = .ok (.out (.pos 0), [99]) := by decide
theorem witness_RunningMachineAlwaysSteps : State.reset.Running ∧ p2.Running := by decide
theorem witness_TerminalMachineTakesNoStep : s1end.halted = true ∧ s7end.halted = false ∧
    s7end.fault = some .inputExhausted := by decide
/-- A completed step, a faulting step, and a running state at the end of memory (V-A19 after its first step). -/
theorem witness_PointerAdvancesByTheLength : p2.Running ∧
    step p2 = .next { machine [1101, 100, -1, 4, 99] [] with ip := 4 } ∧ step (machine [3, 0, 99] []) = .next s7end ∧
    step (machine [1, 0, 0, 0] []) = .next { machine [2, 0, 0, 0] [] with ip := 4 } ∧
    ({ machine [2, 0, 0, 0] [] with ip := 4 } : State).Running := ⟨by decide, rfl, rfl, rfl, by decide⟩
theorem witness_CommitIsAtomic : (machine [3, 0, 99] [8]).Running ∧
    step (machine [3, 0, 99] [8]) = .next { machine [8, 0, 99] [] with ip := 2 } ∧
    step (machine [3, 3, 99] [7]) = .next { machine [3, 3, 99] [7] with fault := some .outOfBounds, faultInfo := some 3 } :=
  ⟨by decide, rfl, rfl⟩
/-- Every kind of instruction that references memory, completing with its operand or target at the last cell or the first. -/
theorem witness_CompletedStepStaysInBounds : (machine [1, 4, 0, 4, 99] []).Running ∧
    step (machine [1, 4, 0, 4, 99] []) = .next { machine [1, 4, 0, 4, 100] [] with ip := 4 } ∧
    step (machine [3, 2, 0] [99]) = .next { machine [3, 2, 99] [] with ip := 2 } ∧
    step s5mid = .next { s5mid with ip := 4, outlog := [(2, 42)] } := ⟨by decide, rfl, rfl, rfl⟩
/-- A store at the next instruction's word by ADD (P2, a sum that is HLT's word; S4, a sum that does not decode) and by MUL (a product
that is the word 104 of an OUT with its parameter in memory), and by IN at a parameter of the next instruction and at its own
word. -/
theorem witness_StoreIsSeenByTheNextFetch : p2.Running ∧ fetchInstr p2 = .ok (.add (.imm 100) (.imm (-1)) (.pos 4)) ∧
    storeTarget (.add (.imm 100) (.imm (-1)) (.pos 4)) = some (.pos 4) ∧ TargetIs p2 (.pos 4) 4 ∧
    StoresValue p2 (.add (.imm 100) (.imm (-1)) (.pos 4)) 99 ∧ (99 : Int) % 100 = 99 ∧
    fetchInstr (machine [1101, 4, 3, 4, 99] []) = .ok (.add (.imm 4) (.imm 3) (.pos 4)) ∧
    StoresValue (machine [1101, 4, 3, 4, 99] []) (.add (.imm 4) (.imm 3) (.pos 4)) 7 ∧
    decodeWord 7 = .error .unknownOpcode := by
  refine ⟨by decide, by decide, by decide, by unfold TargetIs; decide, ⟨100, -1, ?_⟩, by decide, by decide, ⟨4, 3, ?_⟩,
    by decide⟩ <;> (unfold OperandIs; decide)
theorem witness_StoreIsSeenByTheNextFetch_mul :
    fetchInstr (machine [1102, 52, 2, 4, 0, 7] []) = .ok (.mul (.imm 52) (.imm 2) (.pos 4)) ∧
    TargetIs (machine [1102, 52, 2, 4, 0, 7] []) (.pos 4) 4 ∧
    StoresValue (machine [1102, 52, 2, 4, 0, 7] []) (.mul (.imm 52) (.imm 2) (.pos 4)) 104 ∧
    fetchInstr { machine [1102, 52, 2, 4, 104, 7] [] with ip := 4 } = .ok (.out (.imm 7)) := by
  refine ⟨by decide, by unfold TargetIs; decide, ⟨52, 2, ?_⟩, by decide⟩
  unfold OperandIs; decide
theorem witness_StoreIsSeenByTheNextFetch_inp : (machine [3, 3, 104, 0, 99] [42]).Running ∧
    fetchInstr (machine [3, 3, 104, 0, 99] [42]) = .ok (.inp (.pos 3)) ∧
    TargetIs (machine [3, 3, 104, 0, 99] [42]) (.pos 3) (2 + (0 + 1)) ∧
    StoresValue (machine [3, 3, 104, 0, 99] [42]) (.inp (.pos 3)) 42 ∧
    fetchInstr { machine [3, 3, 104, 42, 99] [] with ip := 2 } = .ok (.out (.imm 42)) ∧
    fetchInstr (machine [3, 0] [42]) = .ok (.inp (.pos 0)) ∧ TargetIs (machine [3, 0] [42]) (.pos 0) 0 := by
  unfold TargetIs StoresValue
  decide
/-- A completing step, whose next state has no fault, and a faulting one. -/
theorem witness_LogAndFaultInfoAreNeverRead : s5mid.Running ∧
    step s5mid = .next { s5mid with ip := 4, outlog := [(2, 42)] } ∧ s5mid.fault = none ∧
    (machine [3, 0, 99] []).Running ∧ step (machine [3, 0, 99] []) = .next s7end ∧ s7end.fault ≠ none :=
  ⟨by decide, rfl, rfl, by decide, rfl, by decide⟩
theorem witness_FaultEntryChangesOnlyTheFaultRegisters : (machine [3, 0, 99] []).Running ∧
    step (machine [3, 0, 99] []) = .next s7end ∧ s7end.fault ≠ none := ⟨by decide, rfl, by decide⟩
/-- Each of the three cases: a negative word, an unknown opcode, a read mode of 2 in each place. -/
theorem witness_DecodeErrorInItsThreeCases : (machine [-1] []).Running ∧ (machine [-1] []).ip < (machine [-1] []).mem.size ∧
    (machine [-1] []).mem.get 0 < 0 ∧ (machine [98] []).mem.get 0 % 100 = 98 ∧
    (machine [201, 0, 0, 0] []).mem.get 0 / 100 % 10 = 2 ∧ (machine [2002, 0, 0, 0] []).mem.get 0 / 1000 % 10 = 2 ∧
    (machine [204, 0] []).mem.get 0 / 100 % 10 = 2 := by decide
/-- Each of the four places. -/
theorem witness_OutOfBoundsInItsFourPlaces : State.reset.Running ∧
    step State.reset = .next { State.reset with fault := some .outOfBounds, faultInfo := some 0 } ∧
    step (machine [1, 0, 0] []) = .next { machine [1, 0, 0] [] with fault := some .outOfBounds, faultInfo := some 3 } ∧
    step (machine [4, -1, 99] []) =
      .next { machine [4, -1, 99] [] with fault := some .outOfBounds, faultInfo := some (-1) } ∧
    step (machine [3, 3, 99] []) = .next { machine [3, 3, 99] [] with fault := some .outOfBounds, faultInfo := some 3 } :=
  ⟨by decide, rfl, rfl, rfl, rfl⟩
theorem witness_NonZeroWriteModeIsInvalid : OperandIs p2 (.imm 1) 1 ∧ OperandIs p2 (.pos 4) 0 ∧
    (⟨1, 77⟩ : WriteParam).digit ≠ 0 := by
  unfold OperandIs
  decide
theorem witness_EmptyQueueIsInputExhausted :
    TargetIs (machine [3, 0, 99] []) (.pos 2) 2 ∧ (machine [3, 0, 99] []).inq = [] := by
  unfold TargetIs
  decide
/-- A running state whose first fault is in the table's last row, and one with none. -/
theorem witness_StepReportsTheFirstFaultOfThePriorityTable : (machine [3, 0, 99] []).Running ∧
    firstFault (machine [3, 0, 99] []) = some ⟨.inputExhausted, none⟩ ∧ p2.Running ∧ firstFault p2 = none := by decide
theorem witness_FaultCodesAreTheTables : faultCode (some .inputExhausted) = faultCode (some .inputExhausted) := rfl
/-- A state in the middle of a run, with a log entry, that meets the invariant and steps. -/
theorem witness_StepKeepsTheInvariant : ({ s5mid with ip := 4, outlog := [(2, 42)] } : State).Inv ∧
    step { s5mid with ip := 4, outlog := [(2, 42)] } =
      .next { s5mid with ip := 5, outlog := [(2, 42)], halted := true } :=
  ⟨⟨by decide, by decide, by decide, rfl, by decide, by decide⟩, rfl⟩
/-- A faulted state that meets it too. -/
theorem witness_CommandsKeepTheInvariant : s7end.Inv :=
  ⟨by decide, by decide, by decide, ⟨rfl, rfl⟩, by decide, by decide⟩
theorem witness_StatusIsStickyAndTheLogGrows : (∀ image, Command.step ≠ .load image) ∧ s1end.halted = true ∧
    s7end.fault = some .inputExhausted := ⟨fun _ h => Command.noConfusion h, by decide, by decide⟩
theorem witness_RunRepeatsStepUntilTerminal : s1end.Terminal ∧ s7end.Terminal ∧ p2.Running ∧
    step p2 = .next { machine [1101, 100, -1, 4, 99] [] with ip := 4 } := ⟨by decide, by decide, by decide, rfl⟩
theorem witness_RunIsEnqueueingThenStepping : runBound p2 ≤ 4 ∧ runBound s1end ≤ 1 := by decide
theorem witness_TerminalMachineIsImmutable : s1end.Terminal ∧ s1end.halted = true ∧ s7end.Terminal ∧
    s7end.halted = false ∧ s7end.fault = some .inputExhausted := by decide
/-- A step that answers each of Fault, Halted and Ok. -/
theorem witness_EnqAndStepOnARunningMachine : (machine [3, 0, 99] []).Running ∧
    step (machine [3, 0, 99] []) = .next s7end ∧ (machine [99] []).Running ∧ step (machine [99] []) = .next s1end ∧
    p2.Running ∧ step p2 = .next { machine [1101, 100, -1, 4, 99] [] with ip := 4 } :=
  ⟨by decide, rfl, by decide, rfl, by decide, rfl⟩
theorem witness_InspectionShowsAndChangesNothing : hostPeek (-1) (machine [7, 8] []) = .status (.fault .outOfBounds) ∧
    hostPeek 0 (machine [7, 8] []) = .cell 7 ∧ hostPeek 1 (machine [7, 8] []) = .cell 8 ∧
    hostPeek 2 (machine [7, 8] []) = .status (.fault .outOfBounds) := by decide
/-- One run that ends at a HLT and one that ends at a fault (P2, S4). -/
theorem witness_RunEndsAtAHltOrAtTheFaultingInstruction : p2.Running ∧
    ((run p2).halted = true ∧ (run p2).fault = none) ∧ (machine [1101, 4, 3, 4, 99] []).Running ∧
    (run (machine [1101, 4, 3, 4, 99] [])).halted = false := by decide
/-- A history in which an IN completes, an ENQ is refused after the fault, and the queue is used up (V-IN5). -/
theorem witness_Histories :
    gather inputStored [.enq 5, .step, .step, .enq 6] (State.load [3, 0, 3, 1, 99]) = [5] ∧
    enqueuedBy [.enq 5, .step, .step, .enq 6] (State.load [3, 0, 3, 1, 99]) = [5] ∧
    gather pairEmitted [.step, .step] (State.load [104, 8, 99]) = [(0, 8)] ∧
    gather (fun s => [cellsPassed s]) [.step, .step] (State.load [104, 8, 99]) = [2, 1] := by decide

end Sys2Proof.Tests
end

section
/-! PROOFS. The obligations of 20_memory.md: one cell read or written (R24, R25), the bounds of every access of a step
(R26), and the read parameter in position mode (R32). -/

namespace Sys2Proof.Machine

/-! ## Reading and writing as operations on the sequence of cells -/

/-- An address below zero or at or beyond `N` fails the bounds check. -/
theorem Memory.not_inBounds_of_outside {m : Memory} {a : Int} (h : a < 0 ∨ (m.size : Int) ≤ a) : ¬ m.InBounds a := by
  rintro ⟨h0, hN⟩
  omega

/-- A read inside memory answers the element of the sequence at that index. -/
theorem memRead_eq_toList_getElem {s : State} {a : Int} (h : s.mem.InBounds a) :
    ∃ v, s.mem.toList[a.toNat]? = some v ∧ memRead s a = .ok v := by
  obtain ⟨h0, hN⟩ := h
  have ha : a.toNat < s.mem.size := by omega
  exact ⟨s.mem.get a.toNat, by rw [Memory.toList_getElem?, if_pos ha], memRead_inside s ⟨h0, hN⟩⟩

/-- Storing a cell replaces the element of the sequence at that index, and no other. -/
theorem Memory.toList_set (m : Memory) (v : Int) {a : Nat} (h : a < m.size) :
    (m.set a v).toList = m.toList.set a v := by
  refine List.ext_getElem (by simp) fun b _ _ => ?_
  rw [List.getElem_set]
  split
  next hab => subst hab; simp [h]
  next hab => simp [Memory.get_set_other m v (Ne.symm hab)]

/-- A write at or beyond the end of memory changes nothing. -/
theorem memWrite_outside (s : State) (v : Int) {a : Nat} (h : s.mem.size ≤ a) : memWrite s a v = s := by
  rw [memWrite, Memory.set_outside s.mem v h]

/-- A direct write target outside memory does not resolve. -/
theorem resolveWrite_outside (s : State) (k : Nat) {a : Int} (h : ¬ s.mem.InBounds a) :
    resolveWrite s ⟨0, a⟩ k = .error ⟨.outOfBounds, some a⟩ := by
  rw [resolveWrite, if_pos rfl, if_neg h]

/-! ## The accesses of an instruction that completes (20_memory.md R26) -/

/-- An operand in position mode was read from an address of memory. -/
theorem OperandIs.inBounds {s : State} {p : ReadParam} {v : Int} (h : OperandIs s p v) (hm : p.mode = .position) :
    s.mem.InBounds p.raw := by
  obtain ⟨hi, -⟩ | ⟨-, h0, hN, -⟩ := h
  · rw [hm] at hi
    cases hi
  · exact ⟨h0, hN⟩

/-- A resolved write target is an address of memory. -/
theorem TargetIs.inBounds {s : State} {c : WriteParam} {a : Nat} (h : TargetIs s c a) : s.mem.InBounds c.raw := by
  obtain ⟨-, hraw, ha⟩ := h
  constructor <;> omega

/-- A step without a fault in its next state fetched an instruction and ran its meaning. -/
theorem step_completed {s t : State} (hstep : step s = .next t) (hf : t.fault = none) :
    ∃ i, fetchInstr s = .ok i ∧ exec i s = .next t := by
  obtain ⟨-, ⟨r, -, rfl⟩ | hi⟩ := step_cases hstep
  · cases hf
  · exact hi

/-- ADD and MUL complete only with position operands and a target that are addresses of memory. -/
theorem execBinary_completed_inBounds {f : Int → Int → Int} {a b : ReadParam} {c : WriteParam} {s t : State}
    (h : execBinary f a b c s = .next t) (hf : t.fault = none) :
    (∀ p, p = a ∨ p = b → p.mode = .position → s.mem.InBounds p.raw) ∧ s.mem.InBounds c.raw := by
  obtain ⟨_, _, _, ha, hb, hc, -⟩ | ⟨r, rfl, -⟩ := execBinary_cases h
  · refine ⟨?_, hc.inBounds⟩
    rintro p (rfl | rfl)
    · exact ha.inBounds
    · exact hb.inBounds
  · cases hf

/-- IN completes only with a target that is an address of memory. -/
theorem execIn_completed_inBounds {c : WriteParam} {s t : State} (h : execIn c s = .next t) (hf : t.fault = none) :
    s.mem.InBounds c.raw := by
  obtain ⟨_, _, _, hc, -⟩ | ⟨r, rfl, -⟩ := execIn_cases h
  · exact hc.inBounds
  · cases hf

/-- OUT completes only with a position operand that is an address of memory. -/
theorem execOut_completed_inBounds {a : ReadParam} {s t : State} (h : execOut a s = .next t) (hf : t.fault = none)
    (hm : a.mode = .position) : s.mem.InBounds a.raw := by
  obtain ⟨_, ha, -⟩ | ⟨r, rfl, -⟩ := execOut_cases h
  · exact ha.inBounds hm
  · cases hf

end Sys2Proof.Machine

namespace Sys2Proof

open Sys2Proof.Machine

/-- Settles O9: the sequence of cells after a write inside memory, and the write outside it that changes nothing. -/
theorem memWriteReplacesOneCell : Obligations.MemWriteReplacesOneCell := by
  intro s a v
  refine ⟨Memory.toList_set s.mem v, fun ha => ⟨memWrite_outside s v ha, fun k => ?_⟩, rfl, Memory.set_size s.mem a v⟩
  exact resolveWrite_outside s k (Memory.not_inBounds_of_outside (.inr (by omega)))

/-- Settles O27, by the instruction that the completed step fetched. -/
theorem completedStepStaysInBounds : Obligations.CompletedStepStaysInBounds := by
  refine ⟨fun s t _ hstep hf => ?_, fun s => ⟨?_, ?_⟩⟩
  · obtain ⟨i, hi, hexec⟩ := step_completed hstep hf
    obtain ⟨-, hlen, -⟩ := fetchInstr_eq_ok hi
    refine ⟨i, hi, hlen, ?_, ?_, ?_⟩
    · rintro a b c (rfl | rfl)
      · exact execBinary_completed_inBounds (f := aluAdd) hexec hf
      · exact execBinary_completed_inBounds (f := aluMul) hexec hf
    · rintro c rfl
      exact execIn_completed_inBounds hexec hf
    · rintro a rfl
      exact execOut_completed_inBounds hexec hf
  · exact memRead_outside s (Memory.not_inBounds_of_outside (.inl (by decide)))
  · exact memRead_outside s (Memory.not_inBounds_of_outside (.inr le_rfl))

/-- Settles O8, from the two answers of the bounds check. -/
theorem memReadIsBoundsChecked : Obligations.MemReadIsBoundsChecked := fun s _ =>
  ⟨fun hout => memRead_outside s (Memory.not_inBounds_of_outside hout), memRead_eq_toList_getElem⟩

/-- Settles O11: position mode is one bounds-checked read at the raw value, immediate mode is the raw value. -/
theorem positionModeReadsTheCell : Obligations.PositionModeReadsTheCell := by
  intro s p
  obtain ⟨houtside, hinside⟩ := memReadIsBoundsChecked s p
  exact ⟨houtside, hinside, rfl⟩

end Sys2Proof
end

section
/-! PROOFS. The obligations of 30_encoding.md about the opcode field: the words it rejects (R48), and the length it alone
decides (R53). -/

namespace Sys2Proof

/-- A decoded word's opcode field is the number of its opcode (R43). -/
theorem decodeWord_opcodeField {w : Int} {h : Head} (hd : decodeWord w = .ok h) :
    w % 100 = (h.opcode.number : Int) := by
  obtain ⟨h0, hop, -⟩ := decodeWord_eq_ok hd
  omega

/-- A non-negative word whose opcode field is no opcode's number is rejected for it (R48). -/
theorem decodeWord_unknownOpcode {w : Int} (h0 : 0 ≤ w) (hne : ∀ op : Opcode, w % 100 ≠ (op.number : Int)) :
    decodeWord w = .error .unknownOpcode := by
  have hnone : Opcode.ofNumber (opcodeField w.toNat) = none := by
    refine Option.eq_none_iff_forall_not_mem.mpr fun op hop => hne op ?_
    have hnum : w.toNat % 100 = op.number := Opcode.ofNumber_eq_some hop
    omega
  rw [decodeWord, if_neg (Int.not_lt.mpr h0), hnone]

/-- The five numbers of R48 are the numbers of all opcodes. -/
theorem Opcode.forall_ne_number {x : Int} (h1 : x ≠ 1) (h2 : x ≠ 2) (h3 : x ≠ 3) (h4 : x ≠ 4) (h99 : x ≠ 99)
    (op : Opcode) : x ≠ (op.number : Int) := by
  cases op with
  | add => exact h1
  | mul => exact h2
  | inp => exact h3
  | out => exact h4
  | hlt => exact h99

/-- The number of an opcode and the length of its instructions, row by row (R45). -/
theorem Opcode.number_and_length (op : Opcode) :
    ((op.number : Int) = 1 ∧ op.length = 4) ∨ ((op.number : Int) = 2 ∧ op.length = 4) ∨
    ((op.number : Int) = 3 ∧ op.length = 2) ∨ ((op.number : Int) = 4 ∧ op.length = 2) ∨
    ((op.number : Int) = 99 ∧ op.length = 1) := by
  cases op <;> decide

/-- No two opcodes share a number. -/
theorem Opcode.number_injective : Function.Injective Opcode.number := fun op op' h => by
  simpa using congrArg Opcode.ofNumber h

end Sys2Proof

namespace Sys2Proof.Machine

/-- The decode stage of a rejected word is `DecodeError` with that word, whatever the rejection (60_exceptions.md R77). -/
theorem decodeStage_of_rejected {w : Int} {e : DecodeReject} (hd : decodeWord w = .error e) :
    decodeStage w = .error ⟨.decodeError, some w⟩ := by
  rw [decodeStage, hd]

/-- The step that meets a rejected word is the entry of its `DecodeError` (60_exceptions.md R77, R84). -/
theorem step_of_rejected {s : State} {e : DecodeReject} (hr : s.Running) (hip : s.ip < s.mem.size)
    (hd : decodeWord (s.mem.get s.ip) = .error e) :
    step s = .next (s.takeFault ⟨.decodeError, some (s.mem.get s.ip)⟩) := by
  rw [step_of_running hr, fetchInstr_of_rejected hip hd]

/-- The opcode field of the word at `ip` is the number of the fetched instruction's opcode. -/
theorem fetchInstr_opcodeField {s : State} {i : Instr} (h : fetchInstr s = .ok i) :
    s.mem.get s.ip % 100 = (i.opcode.number : Int) := by
  obtain ⟨hd, -, -⟩ := fetchInstr_eq_ok h
  rw [← Instr.head_opcode]
  exact decodeWord_opcodeField hd

/-- Equal opcode fields at the two pointers: the same opcode is fetched (R53). -/
theorem fetchInstr_opcode_congr {s t : State} {i j : Instr} (hi : fetchInstr s = .ok i) (hj : fetchInstr t = .ok j)
    (hfield : s.mem.get s.ip % 100 = t.mem.get t.ip % 100) : i.opcode = j.opcode := by
  rw [fetchInstr_opcodeField hi, fetchInstr_opcodeField hj] at hfield
  exact Opcode.number_injective (Int.ofNat_inj.mp hfield)

/-- Equal words at the two pointers: the same opcode and modes are fetched, in any two states. -/
theorem fetchInstr_head_congr {s t : State} {i j : Instr} (hi : fetchInstr s = .ok i) (hj : fetchInstr t = .ok j)
    (hword : s.mem.get s.ip = t.mem.get t.ip) : i.head = j.head := by
  obtain ⟨hdi, -, -⟩ := fetchInstr_eq_ok hi
  obtain ⟨hdj, -, -⟩ := fetchInstr_eq_ok hj
  rw [hword, hdj] at hdi
  exact (Except.ok.inj hdi).symm

end Sys2Proof.Machine

namespace Sys2Proof

open Sys2Proof.Machine

/-- Settles O4: an opcode field that is no opcode's number is the decoder's `unknownOpcode`, and the step takes it as a
fault. -/
theorem unrecognizedOpcodeIsDecodeError : Obligations.UnrecognizedOpcodeIsDecodeError := by
  refine ⟨fun w h0 h1 h2 h3 h4 h99 => ?_, fun w => ?_, fun s hr hip h0 h1 h2 h3 h4 h99 => ?_⟩
  · exact decodeStage_of_rejected (decodeWord_unknownOpcode h0 (Opcode.forall_ne_number h1 h2 h3 h4 h99))
  · cases hd : decodeStage w with
    | ok h => exact .inl ⟨h, rfl, decodeWord_opcodeField (decodeStage_eq_ok.mp hd)⟩
    | error r => exact .inr ⟨r, rfl⟩
  · have hd := decodeWord_unknownOpcode h0 (Opcode.forall_ne_number h1 h2 h3 h4 h99)
    exact ⟨_, step_of_rejected hr hip hd, rfl, rfl⟩

/-- Settles O6: the opcode field is the number of the fetched opcode, whose row gives the length, and the head is a
function of the word. -/
theorem lengthIsDecidedByOpcodeField : Obligations.LengthIsDecidedByOpcodeField := by
  refine ⟨fun s i hi => ?_, fun s t i j hi hj => ⟨fun hfield => ?_, fetchInstr_head_congr hi hj⟩⟩
  · rw [fetchInstr_opcodeField hi]
    exact i.opcode.number_and_length
  · exact congrArg Opcode.length (fetchInstr_opcode_congr hi hj hfield)

end Sys2Proof
end

section
/-! PROOFS. The obligations of 40_execution_loop.md: the commit of a step (R60), the run loop (R62) and the pointer advance
(R64). -/

namespace Sys2Proof.Machine

/-! ## The two endings of a step: commit or fault -/

/-- An instruction commits, which keeps the fault register and moves `ip` past the instruction, or its fault is taken. -/
theorem exec_commits_or_faults {i : Instr} {s t : State} (h : exec i s = .next t) :
    (t.fault = s.fault ∧ t.ip = s.ip + i.length ∧ t.mem.size = s.mem.size) ∨ ∃ r, t = s.takeFault r := by
  obtain ⟨_, _, _, _, _, _, rfl, -, -, -, rfl⟩ | ⟨_, _, _, _, _, _, rfl, -, -, -, rfl⟩ | ⟨_, _, _, _, rfl, -, -, rfl⟩ |
    ⟨_, _, rfl, -, rfl⟩ | ⟨rfl, rfl⟩ | hfault := exec_cases h
  case inr.inr.inr.inr.inr => exact .inr hfault
  all_goals exact .inl (by simp)

/-- A step whose next state has no fault fetched an instruction and moved `ip` past it, within a memory of the same
length. -/
theorem step_completed_ip {s t : State} (hstep : step s = .next t) (hf : t.fault = none) :
    ∃ i, fetchInstr s = .ok i ∧ exec i s = .next t ∧ t.ip = s.ip + i.length ∧ t.mem.size = s.mem.size := by
  obtain ⟨i, hi, hexec⟩ := step_completed hstep hf
  obtain ⟨-, hip, hsize⟩ | ⟨r, rfl⟩ := exec_commits_or_faults hexec
  · exact ⟨i, hi, hexec, hip, hsize⟩
  · cases hf

/-- A step whose next state has a fault is the entry of that fault and nothing else (60_exceptions.md R84). -/
theorem step_faulted {s t : State} (hstep : step s = .next t) (hf : t.fault ≠ none) : ∃ r, t = s.takeFault r := by
  obtain ⟨⟨-, hnone⟩, ⟨r, -, ht⟩ | ⟨i, -, hexec⟩⟩ := step_cases hstep
  · exact ⟨r, ht⟩
  · obtain ⟨hkeep, -⟩ | hfault := exec_commits_or_faults hexec
    · exact absurd (hkeep.trans hnone) hf
    · exact hfault

/-! ## The commit of IN -/

/-- Only an IN that commits changes the queue, and it stores the head that it removes. -/
theorem exec_changes_inq {i : Instr} {s t : State} (h : exec i s = .next t) (hq : t.inq ≠ s.inq) :
    ∃ c a x, i = .inp c ∧ TargetIs s c a ∧ s.inq = x :: t.inq ∧ t.mem = s.mem.set a x := by
  obtain ⟨_, _, _, _, _, _, -, -, -, -, rfl⟩ | ⟨_, _, _, _, _, _, -, -, -, -, rfl⟩ | ⟨c, a, x, rest, hi, hc, hin, rfl⟩ |
    ⟨_, _, -, -, rfl⟩ | ⟨-, rfl⟩ | ⟨_, rfl⟩ := exec_cases h
  case inr.inr.inl => exact ⟨c, a, x, hi, hc, by simp [hin], rfl⟩
  all_goals exact absurd rfl hq

/-- The step that changes the queue is the step of a fetched IN that commits. -/
theorem step_changes_inq {s t : State} (hstep : step s = .next t) (hq : t.inq ≠ s.inq) :
    ∃ c a x, fetchInstr s = .ok (.inp c) ∧ TargetIs s c a ∧ s.inq = x :: t.inq ∧ t.mem = s.mem.set a x := by
  obtain ⟨-, ⟨r, -, rfl⟩ | ⟨i, hi, hexec⟩⟩ := step_cases hstep
  · exact absurd rfl hq
  · obtain ⟨c, a, x, rfl, hcommit⟩ := exec_changes_inq hexec hq
    exact ⟨c, a, x, hi, hcommit⟩

/-- The cell of a resolved write target, after the store, holds the value stored. -/
theorem TargetIs.get_set {s : State} {c : WriteParam} {a : Nat} (h : TargetIs s c a) (v : Int) :
    (s.mem.set a v).get c.raw.toNat = v := by
  obtain ⟨-, hraw, ha⟩ := h
  rw [hraw, Int.toNat_natCast, Memory.get_set_self s.mem a v ha]

/-! ## The run loop and its bound (40_execution_loop.md R62, R63) -/

/-- The one instruction of length 1 is HLT, which ends the run. -/
theorem exec_running_length {i : Instr} {s t : State} (h : exec i s = .next t) (ht : t.Running) : 2 ≤ i.length := by
  cases i with
  | add a b c => simp
  | mul a b c => simp
  | inp c => simp
  | out a => simp
  | hlt =>
    cases (execHlt_eq s).symm.trans h
    exact absurd ht.1 (by simp)

/-- A step that leaves the machine running passes two cells or more of memory, so it uses up one step of the bound. -/
theorem runBound_step {s t : State} (hstep : step s = .next t) (ht : t.Running) : runBound t + 1 ≤ runBound s := by
  obtain ⟨i, hi, hexec, hip, hsize⟩ := step_completed_ip hstep ht.2
  obtain ⟨-, hinside, -⟩ := fetchInstr_eq_ok hi
  have hlen := exec_running_length hexec ht
  unfold runBound
  omega

/-- A running machine answers a next state. -/
theorem step_next_of_running {s : State} (h : s.Running) : ∃ t, step s = .next t := by
  rw [step_of_running h]
  cases fetchInstr s with
  | error r => exact ⟨_, rfl⟩
  | ok i => exact exec_next i s

/-- As many steps as the bound allows end the run. -/
theorem runSteps_ends {n : Nat} {s : State} (h : runBound s ≤ n) : (runSteps n s).Terminal := by
  induction n generalizing s with
  | zero => exact absurd h (by simp [runBound])
  | succ n ih =>
    obtain hs | hs := running_or_terminal s
    · obtain ⟨t, hstep⟩ := step_next_of_running hs
      rw [runSteps_running n hs, stepState_of_next hstep]
      obtain ht | ht := running_or_terminal t
      · have hdrop := runBound_step hstep ht
        exact ih (by omega)
      · rwa [runSteps_terminal n ht]
    · rwa [runSteps_terminal _ hs]

/-- Repetitions of the step add up. -/
theorem runSteps_add (n k : Nat) (s : State) : runSteps (n + k) s = runSteps k (runSteps n s) := by
  induction n generalizing s with
  | zero => rw [Nat.zero_add]; rfl
  | succ n ih =>
    obtain hs | hs := running_or_terminal s
    · rw [Nat.add_right_comm, runSteps_running _ hs, runSteps_running _ hs, ih]
    · simp only [runSteps_terminal _ hs]

/-- Every number of repetitions that reaches the bound gives the state that `run` gives. -/
theorem runSteps_eq_run {n : Nat} {s : State} (h : runBound s ≤ n) : runSteps n s = run s := by
  obtain ⟨k, rfl⟩ := Nat.exists_eq_add_of_le h
  rw [runSteps_add]
  exact runSteps_terminal k (runSteps_ends le_rfl)

theorem run_terminal {s : State} (h : s.Terminal) : run s = s := runSteps_terminal _ h

/-- A run from a running state is its first step and the run from there: one repetition more than the bound leaves, after
that step, as many as the next state's bound asks for. -/
theorem run_step {s t : State} (hs : s.Running) (hstep : step s = .next t) : run s = run t := by
  calc run s = runSteps (runBound s + 1) s := (runSteps_eq_run (Nat.le_succ _)).symm
    _ = runSteps (runBound s) t := by rw [runSteps_running _ hs, stepState_of_next hstep]
    _ = run t := by
      obtain ht | ht := running_or_terminal t
      · exact runSteps_eq_run (Nat.le_of_succ_le (runBound_step hstep ht))
      · rw [runSteps_terminal _ ht, run_terminal ht]

end Sys2Proof.Machine

namespace Sys2Proof

open Sys2Proof.Machine

/-- Settles O25: a completed step passes the instruction it fetched, whose length is its opcode's row; a faulting step is the
fault's entry; a fetch past the end of memory is OutOfBounds of the pointer. -/
theorem pointerAdvancesByTheLength : Obligations.PointerAdvancesByTheLength := by
  intro s t _ hstep
  refine ⟨fun hf => ?_, fun hf => ?_, fun ht hout => ⟨_, step_outside ht hout, rfl, rfl⟩⟩
  · obtain ⟨i, hi, -, hip, -⟩ := step_completed_ip hstep hf
    obtain ⟨hdecode, -, -⟩ := fetchInstr_eq_ok hi
    obtain ⟨hnonneg, -, -⟩ := decodeWord_eq_ok hdecode
    have hfield := fetchInstr_opcodeField hi
    have hlen : i.length = i.opcode.length := rfl
    have hrow := i.opcode.number_and_length
    exact ⟨hnonneg, by omega⟩
  · obtain ⟨r, rfl⟩ := step_faulted hstep hf
    rfl

/-- Settles O26: a fault's entry writes nothing but the fault, and the queue changes in the commit of an IN alone. -/
theorem commitIsAtomic : Obligations.CommitIsAtomic := by
  intro s t _ hstep
  refine ⟨fun hf => ?_, fun hq => ?_⟩
  · obtain ⟨r, rfl⟩ := step_faulted hstep hf
    exact ⟨rfl, rfl, rfl, rfl, rfl⟩
  · obtain ⟨c, a, x, hi, hc, hin, hmem⟩ := step_changes_inq hstep hq
    obtain ⟨hlow, hhigh⟩ := hc.inBounds
    exact ⟨c, x, hi, hin, hlow, hhigh, hmem ▸ hc.get_set x⟩

/-- Settles O42, by the bound on the steps of a run: each step but the last uses up at least one of it. -/
theorem runRepeatsStepUntilTerminal : Obligations.RunRepeatsStepUntilTerminal :=
  ⟨fun _ => run_terminal, fun _ _ => run_step⟩

end Sys2Proof
end

section
/-! PROOFS. The obligations of 30_encoding.md about whole instructions: the decoder and the encoder undo each other (R42 to R46),
the fields are decimal digits (R43), and surplus digits are ignored (R51). -/

namespace Sys2Proof

/-- The encoded shape of every instruction, assembled from its five rows. -/
theorem Laws.EncodedShape.all (i : Instr) : Laws.EncodedShape.Statement i := by
  cases i with
  | add a b c => exact add a b c
  | mul a b c => exact mul a b c
  | inp c => exact inp c
  | out a => exact out a
  | hlt => exact hlt

/-! ## The mode digits of a word, as numerals (R43) -/

theorem modeDigit_one (w : Nat) : modeDigit w 1 = w / 100 % 10 := rfl
theorem modeDigit_two (w : Nat) : modeDigit w 2 = w / 1000 % 10 := rfl
theorem modeDigit_three (w : Nat) : modeDigit w 3 = w / 10000 % 10 := rfl

/-! ## A row of the decoder on a word whose digits are known: the converse of the `headOf` lemmas -/

theorem headOf_add_of_digits {w : Nat} {a b : Mode} {c : Nat} (ha : w / 100 % 10 = a.toDigit)
    (hb : w / 1000 % 10 = b.toDigit) (hc : w / 10000 % 10 = c) : headOf .add w = .ok (.add a b c) := by
  simp only [headOf, modeDigit_one, modeDigit_two, modeDigit_three, ha, hb, hc, Mode.ofDigit_toDigit]

theorem headOf_mul_of_digits {w : Nat} {a b : Mode} {c : Nat} (ha : w / 100 % 10 = a.toDigit)
    (hb : w / 1000 % 10 = b.toDigit) (hc : w / 10000 % 10 = c) : headOf .mul w = .ok (.mul a b c) := by
  simp only [headOf, modeDigit_one, modeDigit_two, modeDigit_three, ha, hb, hc, Mode.ofDigit_toDigit]

theorem headOf_inp_of_digits {w c : Nat} (hc : w / 100 % 10 = c) : headOf .inp w = .ok (.inp c) := by
  simp only [headOf, modeDigit_one, hc]

theorem headOf_out_of_digits {w : Nat} {a : Mode} (ha : w / 100 % 10 = a.toDigit) : headOf .out w = .ok (.out a) := by
  simp only [headOf, modeDigit_one, ha, Mode.ofDigit_toDigit]

/-- The row of an opcode reads the mode digits below its surplus base and nothing else (R51). -/
theorem headOf_add_surplus (op : Opcode) (w k : Nat) :
    headOf op (w + Machine.surplusBase op * k) = headOf op w := by
  cases op with
  | add | mul =>
    have h1 : modeDigit (w + 100000 * k) 1 = modeDigit w 1 := by simp only [modeDigit_one]; omega
    have h2 : modeDigit (w + 100000 * k) 2 = modeDigit w 2 := by simp only [modeDigit_two]; omega
    have h3 : modeDigit (w + 100000 * k) 3 = modeDigit w 3 := by simp only [modeDigit_three]; omega
    simp only [headOf, Machine.surplusBase, h1, h2, h3]
  | inp | out =>
    have h1 : modeDigit (w + 1000 * k) 1 = modeDigit w 1 := by simp only [modeDigit_one]; omega
    simp only [headOf, Machine.surplusBase, h1]
  | hlt => rfl

/-! ## Lists of cells -/

/-- A list decodes to an instruction exactly when its word decodes to the instruction's head and its parameters follow. -/
theorem decode_cons_eq_ok_iff (w : Int) (cells rest : List Int) (i : Instr) :
    decode (w :: cells) = .ok (i, rest) ↔ decodeWord w = .ok i.head ∧ cells = i.params ++ rest := by
  simp only [decode]
  cases hd : decodeWord w with
  | error e => simp
  | ok h =>
    simp only [assemble_eq_ok_iff, Except.ok.injEq]
    exact and_congr_left' eq_comm

/-! ## From an instruction to its word and back -/

/-- A write target's mode is a digit. -/
theorem WriteParam.wf_iff {c : WriteParam} : c.wf = true ↔ c.digit < 10 := decide_eq_true_iff

/-- The canonical word of a well-formed instruction decodes to its opcode and modes (R43, R46). -/
theorem decodeWord_word {i : Instr} (h : i.wf = true) : decodeWord i.head.word = .ok i.head := by
  obtain ⟨-, h0, hfield⟩ := Laws.EncodedShape.all i
  rw [decodeWord_of_opcode h0 (op := i.opcode) (by omega)]
  cases i with
  | add a b c =>
    have hc := WriteParam.wf_iff.mp h
    have ha := a.mode.toDigit_lt
    have hb := b.mode.toDigit_lt
    simp only [Instr.head, Head.word, Opcode.number, Int.toNat_natCast]
    exact headOf_add_of_digits (by omega) (by omega) (by omega)
  | mul a b c =>
    have hc := WriteParam.wf_iff.mp h
    have ha := a.mode.toDigit_lt
    have hb := b.mode.toDigit_lt
    simp only [Instr.head, Head.word, Opcode.number, Int.toNat_natCast]
    exact headOf_mul_of_digits (by omega) (by omega) (by omega)
  | inp c =>
    have hc := WriteParam.wf_iff.mp h
    simp only [Instr.head, Head.word, Opcode.number, Int.toNat_natCast]
    exact headOf_inp_of_digits (by omega)
  | out a =>
    have ha := a.mode.toDigit_lt
    simp only [Instr.head, Head.word, Opcode.number, Int.toNat_natCast]
    exact headOf_out_of_digits (by omega)
  | hlt => rfl

/-- Every field of a decoded word is a decimal digit of it (R43): one equation for each mode, by constructor. -/
def Head.DigitsOf (w : Nat) : Head → Prop
  | .add a b c | .mul a b c => a.toDigit = w / 100 % 10 ∧ b.toDigit = w / 1000 % 10 ∧ c = w / 10000 % 10
  | .inp c => c = w / 100 % 10
  | .out a => a.toDigit = w / 100 % 10
  | .hlt => True

theorem decodeWord_digits {w : Int} {h : Head} (hd : decodeWord w = .ok h) : h.DigitsOf w.toNat := by
  obtain ⟨-, -, hh⟩ := decodeWord_eq_ok hd
  cases h with
  | add a b c =>
    obtain ⟨_, _, heq, ha, hb⟩ := headOf_add hh
    cases heq
    exact ⟨ha, hb, rfl⟩
  | mul a b c =>
    obtain ⟨_, _, heq, ha, hb⟩ := headOf_mul hh
    cases heq
    exact ⟨ha, hb, rfl⟩
  | inp c =>
    cases headOf_inp hh
    rfl
  | out a =>
    obtain ⟨_, heq, ha⟩ := headOf_out hh
    cases heq
    exact ha
  | hlt => trivial

/-- A decoded word is its head's canonical word below the digits the opcode does not use (R43, R51). -/
theorem decodeWord_mod_surplusBase {w : Int} {h : Head} (hd : decodeWord w = .ok h) :
    w % (Machine.surplusBase h.opcode : Int) = h.word := by
  obtain ⟨h0, hop, -⟩ := decodeWord_eq_ok hd
  have hdigits := decodeWord_digits hd
  simp only [Head.opcode, Machine.surplusBase, Head.word, Opcode.number] at hop ⊢
  cases h with
  | add a b c | mul a b c =>
    obtain ⟨ha, hb, hc⟩ := hdigits
    simp only at hop ⊢
    omega
  | inp c =>
    have hc : c = w.toNat / 100 % 10 := hdigits
    simp only at hop ⊢
    omega
  | out a =>
    have ha : a.toDigit = w.toNat / 100 % 10 := hdigits
    simp only at hop ⊢
    omega
  | hlt =>
    simp only at hop ⊢
    omega

/-- The instruction of a decoded word is well-formed: a write mode is one digit of the word. -/
theorem wf_of_decodeWord {w : Int} {i : Instr} (hd : decodeWord w = .ok i.head) : i.wf = true := by
  have hdigits := decodeWord_digits hd
  cases i with
  | add a b c | mul a b c =>
    obtain ⟨-, -, hc⟩ := hdigits
    exact WriteParam.wf_iff.mpr (by omega)
  | inp c =>
    have hc : c.digit = w.toNat / 100 % 10 := hdigits
    exact WriteParam.wf_iff.mpr (by omega)
  | out a => rfl
  | hlt => rfl

/-! ## The obligations -/

/-- Settles O1: the canonical word decodes to the head, and the parameters are taken whole. -/
theorem decodeInvertsEncode : Obligations.DecodeInvertsEncode := fun i rest hwf =>
  (decode_cons_eq_ok_iff i.head.word (i.params ++ rest) rest i).mpr ⟨decodeWord_word hwf, rfl⟩

/-- Settles O2, from the digits of the decoded word. -/
theorem decodedCellsAreTheEncoding : Obligations.DecodedCellsAreTheEncoding := by
  intro cells rest i h
  cases cells with
  | nil => cases h
  | cons w cells =>
    obtain ⟨hd, rfl⟩ := (decode_cons_eq_ok_iff w cells rest i).mp h
    obtain ⟨h0, -, -⟩ := decodeWord_eq_ok hd
    have hmod := decodeWord_mod_surplusBase hd
    rw [Instr.head_opcode] at hmod
    exact ⟨wf_of_decodeWord hd, w, rfl, h0, hmod⟩

/-- Settles O3: the equations of the decoded word's digits, read off for each opcode. -/
theorem fieldsAreDecimalDigits : Obligations.FieldsAreDecimalDigits := by
  intro w h hd
  obtain ⟨-, hop, -⟩ := decodeWord_eq_ok hd
  have hdigits := decodeWord_digits hd
  rw [Int.toNat_natCast] at hop hdigits
  refine ⟨hop, ?_, ?_, ?_⟩
  · rintro a b c (rfl | rfl) <;> exact hdigits
  · rintro c rfl
    exact hdigits
  · rintro a rfl
    exact hdigits

/-- Settles O5: the opcode field and the opcode's row see the same digits. -/
theorem surplusDigitsIgnored : Obligations.SurplusDigitsIgnored := by
  intro w k op hop
  have hop' : (w + Machine.surplusBase op * k) % 100 = op.number := by
    cases op <;> simp only [Machine.surplusBase] <;> omega
  rw [decodeWord_of_opcode (Int.natCast_nonneg _) hop, decodeWord_of_opcode (Int.natCast_nonneg _) hop']
  exact headOf_add_surplus op w k

/-- Settles O7: the decoder evaluated on six closed lists. -/
theorem writtenOutWordsDecode : Obligations.WrittenOutWordsDecode := by
  unfold Obligations.WrittenOutWordsDecode
  decide

end Sys2Proof
end

section
/-! PROOFS. The obligations about the meanings of the five instructions (41_arithmetic.md, 42_io.md, 43_halt.md): their effect
when they complete, their frame, and the faults they raise in stages D and E. -/

namespace Sys2Proof.Machine

/-! ## A stage that fails: the converse of the `_eq_error` lemmas -/

theorem resolveRead_of_fails {s : State} {p : ReadParam} {r : Raised} (h : ReadFails s p r) :
    resolveRead s p = .error r := by
  obtain ⟨m, raw⟩ := p
  obtain ⟨rfl, hout, rfl⟩ := h
  exact memRead_outside s hout

theorem resolveWrite_of_fails {s : State} {c : WriteParam} {k : Nat} {r : Raised} (h : WriteFails s c k r) :
    resolveWrite s c k = .error r := by
  obtain ⟨d, raw⟩ := c
  obtain ⟨hd, rfl⟩ | ⟨rfl, hout, rfl⟩ := h
  · exact if_neg hd
  · exact resolveWrite_outside s k hout

/-! ## A stage that succeeds -/

theorem OperandIs.reads {s : State} {p : ReadParam} {v : Int} (h : OperandIs s p v) :
    resolveRead s p = .ok v := (resolveRead_eq_ok_iff s p v).mpr h

theorem TargetIs.resolves {s : State} {c : WriteParam} {a : Nat} (h : TargetIs s c a) (k : Nat) :
    resolveWrite s c k = .ok a := (resolveWrite_eq_ok_iff s c k a).mpr h

theorem TargetIs.lt {s : State} {c : WriteParam} {a : Nat} (h : TargetIs s c a) : a < s.mem.size := by
  obtain ⟨-, -, ha⟩ := h
  exact ha

/-! ## Why an instruction faults, and that it does -/

/-- The faults of ADD and MUL, in the order of their stages (60_exceptions.md R83). -/
def BinaryFails (s : State) (a b : ReadParam) (c : WriteParam) (r : Raised) : Prop :=
  ReadFails s a r ∨ (∃ va, OperandIs s a va ∧ ReadFails s b r) ∨
    (∃ va vb, OperandIs s a va ∧ OperandIs s b vb ∧ WriteFails s c 3 r)

/-- The faults of IN. -/
def InFails (s : State) (c : WriteParam) (r : Raised) : Prop :=
  WriteFails s c 1 r ∨ (∃ t, TargetIs s c t ∧ s.inq = [] ∧ r = ⟨.inputExhausted, none⟩)

/-- The faults of each instruction after it has been fetched. -/
def ExecFails (s : State) (i : Instr) (r : Raised) : Prop :=
  match i with
  | .add a b c | .mul a b c => BinaryFails s a b c r
  | .inp c => InFails s c r
  | .out a => ReadFails s a r
  | .hlt => False

theorem execBinary_of_fails (f : Int → Int → Int) {a b : ReadParam} {c : WriteParam} {s : State} {r : Raised}
    (h : BinaryFails s a b c r) : execBinary f a b c s = .next (s.takeFault r) := by
  unfold execBinary
  obtain ha | ⟨va, ha, hb⟩ | ⟨va, vb, ha, hb, hc⟩ := h
  · rw [resolveRead_of_fails ha]
    rfl
  · rw [ha.reads, resolveRead_of_fails hb]
    rfl
  · rw [ha.reads, hb.reads, resolveWrite_of_fails hc]
    rfl

theorem execIn_of_fails {c : WriteParam} {s : State} {r : Raised} (h : InFails s c r) :
    execIn c s = .next (s.takeFault r) := by
  unfold execIn
  obtain hc | ⟨t, hc, hq, rfl⟩ := h
  · rw [resolveWrite_of_fails hc]
    rfl
  · rw [hc.resolves 1, headInput, hq]
    rfl

theorem execOut_of_fails {a : ReadParam} {s : State} {r : Raised} (h : ReadFails s a r) :
    execOut a s = .next (s.takeFault r) := by
  unfold execOut
  rw [resolveRead_of_fails h]
  rfl

/-- An instruction that cannot complete takes the fault. -/
theorem exec_of_fails {s : State} {i : Instr} {r : Raised} (h : ExecFails s i r) :
    exec i s = .next (s.takeFault r) := by
  cases i with
  | add a b c => exact execBinary_of_fails aluAdd h
  | mul a b c => exact execBinary_of_fails aluMul h
  | inp c => exact execIn_of_fails h
  | out a => exact execOut_of_fails h
  | hlt => exact h.elim

/-! ## The two endings of an instruction -/

/-- The next state that each instruction commits, with its operands and target resolved in the state before. -/
def Commits (s : State) (i : Instr) (u : State) : Prop :=
  match i with
  | .add a b c => ∃ va vb t, OperandIs s a va ∧ OperandIs s b vb ∧ TargetIs s c t ∧
      u = (memWrite s t (aluAdd va vb)).advance 4
  | .mul a b c => ∃ va vb t, OperandIs s a va ∧ OperandIs s b vb ∧ TargetIs s c t ∧
      u = (memWrite s t (aluMul va vb)).advance 4
  | .inp c => ∃ t x rest, TargetIs s c t ∧ s.inq = x :: rest ∧ u = ((memWrite s t x).popInput).advance 2
  | .out a => ∃ va, OperandIs s a va ∧ u = (s.emit va).advance 2
  | .hlt => u = s.halt.advance 1

theorem exec_of_commits {s u : State} {i : Instr} (h : Commits s i u) : exec i s = .next u := by
  cases i with
  | add a b c =>
    obtain ⟨va, vb, t, ha, hb, hc, rfl⟩ := h
    exact execBinary_completes aluAdd ha hb hc
  | mul a b c =>
    obtain ⟨va, vb, t, ha, hb, hc, rfl⟩ := h
    exact execBinary_completes aluMul ha hb hc
  | inp c =>
    obtain ⟨t, x, rest, hc, hq, rfl⟩ := h
    exact execIn_completes hc hq
  | out a =>
    obtain ⟨va, ha, rfl⟩ := h
    exact execOut_completes ha
  | hlt =>
    cases h
    exact execHlt_eq s

/-- An instruction commits, or takes one of its faults. -/
theorem exec_commits_or_fails {i : Instr} {s u : State} (h : exec i s = .next u) :
    Commits s i u ∨ ∃ r, ExecFails s i r ∧ u = s.takeFault r := by
  cases i with
  | add a b c => exact (execBinary_cases (f := aluAdd) h).imp_right fun ⟨r, hu, hr⟩ => ⟨r, hr, hu⟩
  | mul a b c => exact (execBinary_cases (f := aluMul) h).imp_right fun ⟨r, hu, hr⟩ => ⟨r, hr, hu⟩
  | inp c => exact (execIn_cases h).imp_right fun ⟨r, hu, hr⟩ => ⟨r, hr, hu⟩
  | out a => exact (execOut_cases h).imp_right fun ⟨r, hu, hr⟩ => ⟨r, hr, hu⟩
  | hlt => exact .inl (Host.Outcome.next.inj ((execHlt_eq s).symm.trans h)).symm

/-- A commit leaves the fault register and its information alone. -/
theorem Commits.keeps_fault {s u : State} {i : Instr} (h : Commits s i u) :
    u.fault = s.fault ∧ u.faultInfo = s.faultInfo := by
  cases i with
  | add a b c | mul a b c =>
    obtain ⟨_, _, _, -, -, -, rfl⟩ := h
    exact ⟨rfl, rfl⟩
  | inp c =>
    obtain ⟨_, _, _, -, -, rfl⟩ := h
    exact ⟨rfl, rfl⟩
  | out a =>
    obtain ⟨_, -, rfl⟩ := h
    exact ⟨rfl, rfl⟩
  | hlt =>
    cases h
    exact ⟨rfl, rfl⟩

/-! ## What a store leaves alone -/

/-- A store at a resolved target is seen at that address only. -/
theorem TargetIs.get_set_other {s : State} {c : WriteParam} {a x y k : Nat} (h : TargetIs s c a)
    (hx : resolveWrite s c k = .ok x) (hy : y ≠ x) (v : Int) : (s.mem.set a v).get y = s.mem.get y := by
  cases (h.resolves k).symm.trans hx
  exact Memory.get_set_other s.mem v hy

/-- A target that does not resolve is no target. -/
theorem TargetIs.not_error {s : State} {c : WriteParam} {a k : Nat} {r : Raised} (h : TargetIs s c a) :
    resolveWrite s c k ≠ .error r := by
  rw [h.resolves k]
  nofun

/-- The frame of the two arithmetic instructions, whatever they compute. -/
theorem execBinary_frame {f : Int → Int → Int} {a b : ReadParam} {c : WriteParam} {s t : State}
    (h : execBinary f a b c s = .next t) :
    t.inq = s.inq ∧ t.outlog = s.outlog ∧ t.halted = s.halted ∧ t.mem.size = s.mem.size ∧
    ((t.fault = s.fault ∧ t.faultInfo = s.faultInfo ∧ t.ip = s.ip + 4) ∨
      (∃ r : Raised, t = { s with fault := some r.kind, faultInfo := r.info })) ∧
    (∀ x, resolveWrite s c 3 = .ok x → ∀ y, y ≠ x → t.mem.get y = s.mem.get y) ∧
    (∀ r, resolveWrite s c 3 = .error r → t.mem = s.mem) := by
  obtain ⟨va, vb, z, -, -, hc, rfl⟩ | ⟨r, rfl, -⟩ := execBinary_cases h
  · exact ⟨rfl, rfl, rfl, Memory.set_size _ _ _, .inl ⟨rfl, rfl, rfl⟩,
      fun x hx y hy => hc.get_set_other hx hy (f va vb), fun r hr => absurd hr hc.not_error⟩
  · exact ⟨rfl, rfl, rfl, rfl, .inr ⟨r, rfl⟩, fun _ _ _ _ => rfl, fun _ _ => rfl⟩

end Sys2Proof.Machine

namespace Sys2Proof

open Sys2Proof.Machine

/-- Settles O14: ADD's commit, whose store is an update of the sequence of cells. -/
theorem addStoresTheSum : Obligations.AddStoresTheSum := by
  intro a b c s x y t ha hb hc
  exact ⟨_, execBinary_completes aluAdd ha hb hc, Memory.toList_set s.mem (x + y) hc.lt, rfl⟩

/-- Settles O15: MUL's commit, whose store is an update of the sequence of cells. -/
theorem mulStoresTheProduct : Obligations.MulStoresTheProduct := by
  intro a b c s x y t ha hb hc
  exact ⟨_, execBinary_completes aluMul ha hb hc, Memory.toList_set s.mem (x * y) hc.lt, rfl⟩

/-- Settles O16: IN's commit takes the head of the queue and stores it. -/
theorem inStoresTheHeadOfTheQueue : Obligations.InStoresTheHeadOfTheQueue := by
  intro c s x rest t hc hq
  refine ⟨_, execIn_completes hc hq, Memory.toList_set s.mem x hc.lt, ?_⟩
  simp [State.popInput, State.advance, memWrite, hq]

/-- Settles O17: OUT's commit. -/
theorem outAppendsItsAddressAndOperand : Obligations.OutAppendsItsAddressAndOperand := fun _ _ _ ha =>
  execOut_completes ha

/-- Settles O18: HLT has one ending. -/
theorem hltSetsHalted : Obligations.HltSetsHalted := execHlt_eq

/-- Settles O12: the two checks of the resolver, the mode digit first. -/
theorem writeTargetIsTheRawValue : Obligations.WriteTargetIsTheRawValue := by
  intro s d k p
  refine ⟨fun hd => resolveWrite_of_fails (.inl ⟨hd, rfl⟩), fun hd hout => ?_, fun hd h0 hN => ?_⟩
  · exact resolveWrite_of_fails (.inr ⟨hd, Memory.not_inBounds_of_outside hout, rfl⟩)
  · exact TargetIs.resolves ⟨hd, (Int.toNat_of_nonneg h0).symm, by omega⟩ k

/-- Settles O19: ADD and MUL share one frame. -/
theorem arithmeticFrame : Obligations.ArithmeticFrame := by
  rintro i a b c s t (rfl | rfl) h
  · exact execBinary_frame (f := aluAdd) h
  · exact execBinary_frame (f := aluMul) h

/-- Settles O20, by IN's two endings. -/
theorem inputFrame : Obligations.InputFrame := by
  intro c s t h
  obtain ⟨z, v, rest, hc, hq, rfl⟩ | ⟨r, rfl, -⟩ := execIn_cases h
  · exact ⟨rfl, rfl, Memory.set_size _ _ _, .inl ⟨rfl, by simp [hq], rfl, rfl, rfl⟩,
      fun x hx y hy => hc.get_set_other hx hy v, fun r hr => absurd hr hc.not_error⟩
  · exact ⟨rfl, rfl, rfl, .inr ⟨r, rfl⟩, fun _ _ _ _ => rfl, fun _ _ => rfl⟩

/-- Settles O21, by the endings of OUT and HLT. -/
theorem nonStoringFrame : Obligations.NonStoringFrame := by
  rintro i a s t (rfl | rfl) h
  · obtain ⟨v, -, rfl⟩ | ⟨r, rfl, -⟩ := execOut_cases h
    · exact ⟨rfl, rfl, nofun, fun _ => ⟨rfl, .inl ⟨rfl, rfl, v, rfl⟩⟩⟩
    · exact ⟨rfl, rfl, nofun, fun _ => ⟨rfl, .inr ⟨r, rfl⟩⟩⟩
  · cases (execHlt_eq s).symm.trans h
    exact ⟨rfl, rfl, fun _ => ⟨rfl, rfl, rfl⟩, nofun⟩

/-- Settles O33: the mode digit fails the write target, once the operands of ADD and MUL are read. -/
theorem nonZeroWriteModeIsInvalid : Obligations.NonZeroWriteModeIsInvalid := by
  constructor
  · rintro i a b c s x y (rfl | rfl) ha hb hd
    · exact execBinary_of_fails aluAdd (.inr (.inr ⟨x, y, ha, hb, .inl ⟨hd, rfl⟩⟩))
    · exact execBinary_of_fails aluMul (.inr (.inr ⟨x, y, ha, hb, .inl ⟨hd, rfl⟩⟩))
  · intro c s hd
    exact execIn_of_fails (.inl (.inl ⟨hd, rfl⟩))

/-- Settles O34: the queue is tested after the write target has resolved. -/
theorem emptyQueueIsInputExhausted : Obligations.EmptyQueueIsInputExhausted := fun _ _ t hc hq =>
  execIn_of_fails (.inr ⟨t, hc, hq, rfl⟩)

end Sys2Proof
end

section
/-! PROOFS. The obligations about one step: what it runs (40_execution_loop.md R58), that it always happens, what it never reads
(10_state.md R14), and the faults it takes (60_exceptions.md R77, R78, R84). -/

namespace Sys2Proof

/-- An instruction is its head and its parameters. -/
theorem Instr.eq_of_head_of_params {i j : Instr} (hh : i.head = j.head) (hp : i.params = j.params) : i = j := by
  have hi := (assemble_eq_ok_iff i.head i.params i []).mpr ⟨rfl, by simp⟩
  have hj := (assemble_eq_ok_iff i.head i.params j []).mpr ⟨hh.symm, by simp [hp]⟩
  simpa using hi.symm.trans hj

/-- The three ways in which a word is no instruction (R47 to R49), told from its digits (60_exceptions.md R77). -/
def RejectedWord (w : Int) : Prop :=
  w < 0 ∨
  (0 ≤ w ∧ w % 100 ≠ 1 ∧ w % 100 ≠ 2 ∧ w % 100 ≠ 3 ∧ w % 100 ≠ 4 ∧ w % 100 ≠ 99) ∨
  (0 ≤ w ∧ (w % 100 = 1 ∨ w % 100 = 2) ∧ (2 ≤ w / 100 % 10 ∨ 2 ≤ w / 1000 % 10)) ∨
  (0 ≤ w ∧ w % 100 = 4 ∧ 2 ≤ w / 100 % 10)

/-- A word that decodes is in none of the three cases: its opcode is recognized and its read modes are digits 0 and 1. -/
theorem not_rejectedWord_of_decodeWord {w : Int} {h : Head} (hd : decodeWord w = .ok h) : ¬ RejectedWord w := by
  obtain ⟨h0, hop, -⟩ := decodeWord_eq_ok hd
  have hdigits := decodeWord_digits hd
  unfold RejectedWord
  cases h with
  | add a b c | mul a b c =>
    obtain ⟨ha, hb, -⟩ := hdigits
    have ha' := a.toDigit_lt
    have hb' := b.toDigit_lt
    simp only [Head.opcode, Opcode.number] at hop
    omega
  | inp c => simp only [Head.opcode, Opcode.number] at hop; omega
  | out a =>
    have ha : a.toDigit = w.toNat / 100 % 10 := hdigits
    have ha' := a.toDigit_lt
    simp only [Head.opcode, Opcode.number] at hop
    omega
  | hlt => simp only [Head.opcode, Opcode.number] at hop; omega

/-- A digit below 2 names a mode. -/
theorem Mode.exists_toDigit {d : Nat} (h : d < 2) : ∃ m : Mode, d = m.toDigit := by
  interval_cases d
  · exact ⟨.position, rfl⟩
  · exact ⟨.immediate, rfl⟩

/-- One of the five numbers of R45 is the number of an opcode. -/
theorem Opcode.exists_number {n : Nat} (h : n = 1 ∨ n = 2 ∨ n = 3 ∨ n = 4 ∨ n = 99) :
    ∃ op : Opcode, n = op.number := by
  obtain h | h | h | h | h := h
  · exact ⟨.add, h⟩
  · exact ⟨.mul, h⟩
  · exact ⟨.inp, h⟩
  · exact ⟨.out, h⟩
  · exact ⟨.hlt, h⟩

/-- A word in none of the three cases decodes. -/
theorem decodeWord_of_not_rejectedWord {w : Int} (hw : ¬ RejectedWord w) : ∃ h, decodeWord w = .ok h := by
  unfold RejectedWord at hw
  have h0 : 0 ≤ w := by omega
  obtain ⟨op, hop⟩ := Opcode.exists_number (n := w.toNat % 100) (by omega)
  rw [decodeWord_of_opcode h0 hop]
  cases op with
  | add =>
    have hop : w.toNat % 100 = 1 := hop
    obtain ⟨a, ha⟩ := Mode.exists_toDigit (d := w.toNat / 100 % 10) (by omega)
    obtain ⟨b, hb⟩ := Mode.exists_toDigit (d := w.toNat / 1000 % 10) (by omega)
    exact ⟨_, headOf_add_of_digits ha hb rfl⟩
  | mul =>
    have hop : w.toNat % 100 = 2 := hop
    obtain ⟨a, ha⟩ := Mode.exists_toDigit (d := w.toNat / 100 % 10) (by omega)
    obtain ⟨b, hb⟩ := Mode.exists_toDigit (d := w.toNat / 1000 % 10) (by omega)
    exact ⟨_, headOf_mul_of_digits ha hb rfl⟩
  | inp => exact ⟨_, headOf_inp_of_digits rfl⟩
  | out =>
    have hop : w.toNat % 100 = 4 := hop
    obtain ⟨a, ha⟩ := Mode.exists_toDigit (d := w.toNat / 100 % 10) (by omega)
    exact ⟨_, headOf_out_of_digits ha⟩
  | hlt => exact ⟨_, rfl⟩

/-- The decoder rejects exactly the words of the three cases (60_exceptions.md R77). -/
theorem decodeWord_rejects_iff {w : Int} : (∃ e, decodeWord w = .error e) ↔ RejectedWord w := by
  constructor
  · rintro ⟨e, he⟩
    by_contra hw
    obtain ⟨h, hd⟩ := decodeWord_of_not_rejectedWord hw
    cases he.symm.trans hd
  · intro hw
    cases hd : decodeWord w with
    | error e => exact ⟨e, rfl⟩
    | ok h => exact absurd hw (not_rejectedWord_of_decodeWord hd)

end Sys2Proof

namespace Sys2Proof.Machine

/-! ## The cells at `ip` and the fetch -/

/-- The fetch delivers any instruction that lies whole at `ip`: its head is the word's and its parameters are the cells after
it. -/
theorem fetchInstr_of_cells {s : State} {i : Instr} (hd : decodeWord (s.mem.get s.ip) = .ok i.head)
    (hlen : s.ip + i.length ≤ s.mem.size)
    (hp : i.params = (List.range i.opcode.nparams).map fun j => s.mem.get (s.ip + (j + 1))) : fetchInstr s = .ok i := by
  have hlen' : i.length = i.opcode.nparams + 1 := rfl
  cases hf : fetchInstr s with
  | error r =>
    obtain ⟨hout, -⟩ | ⟨-, ⟨e, he⟩, -⟩ | ⟨-, h, k, hd', -, hk, hout, -⟩ := fetchInstr_eq_error hf
    · omega
    · cases he.symm.trans hd
    · cases hd'.symm.trans hd
      rw [Instr.head_opcode] at hk
      omega
  | ok j =>
    obtain ⟨hdj, -, hpj⟩ := fetchInstr_eq_ok hf
    have hhead : j.head = i.head := Except.ok.inj (hdj.symm.trans hd)
    have hop : j.opcode = i.opcode := by rw [← Instr.head_opcode, hhead, Instr.head_opcode]
    rw [Instr.eq_of_head_of_params hhead (by rw [hpj, hp, hop])]

/-- The parameters of an instruction that decodes from the cells at `ip` lie in memory, each at its place. -/
theorem params_of_cellsFrom {m : Memory} {a n : Nat} {ps rest : List Int} (h : m.cellsFrom a n = ps ++ rest) :
    a + ps.length ≤ max a m.size ∧ ps = (List.range ps.length).map fun k => m.get (a + k) := by
  have hlen := congrArg List.length h
  rw [Memory.cellsFrom_length, List.length_append] at hlen
  refine ⟨by omega, List.ext_getElem (by simp) fun k hk _ => ?_⟩
  have hget := m.cellsFrom_getElem? a n k
  rw [h, List.getElem?_append_left hk, List.getElem?_eq_getElem hk, if_pos (by omega)] at hget
  simpa using hget

/-- When the cells at `ip` decode to an instruction, the fetch delivers it: stages A to C read the same cells. -/
theorem fetchInstr_of_decode {s : State} {i : Instr} {rest : List Int}
    (h : decode (s.mem.cellsFrom s.ip (Config.maxParams + 1)) = .ok (i, rest)) : fetchInstr s = .ok i := by
  rw [Memory.cellsFrom] at h
  split at h
  case isFalse => cases h
  case isTrue hip =>
    obtain ⟨hd, hcells⟩ := (decode_cons_eq_ok_iff _ _ _ _).mp h
    obtain ⟨hin, hp⟩ := params_of_cellsFrom hcells
    have hn := i.params_length
    have hlen : i.length = i.opcode.nparams + 1 := rfl
    refine fetchInstr_of_cells hd (by omega) ?_
    rw [hn] at hp
    simpa only [Nat.add_assoc, Nat.add_comm 1] using hp

/-! ## Why a step faults -/

/-- The faults of a step: those of its fetch, then those of the instruction it fetched. -/
def StepFails (s : State) (r : Raised) : Prop := FetchFails s r ∨ ∃ i, fetchInstr s = .ok i ∧ ExecFails s i r

/-- The two endings of a step: the commit of the instruction fetched, or the entry of one of the step's faults. -/
theorem step_commits_or_fails {s t : State} (hstep : step s = .next t) :
    (∃ i, fetchInstr s = .ok i ∧ Commits s i t) ∨ ∃ r, StepFails s r ∧ t = s.takeFault r := by
  obtain ⟨-, ⟨r, hr, ht⟩ | ⟨i, hi, hexec⟩⟩ := step_cases hstep
  · exact .inr ⟨r, .inl hr, ht⟩
  · obtain hcommit | ⟨r, hr, ht⟩ := exec_commits_or_fails hexec
    · exact .inl ⟨i, hi, hcommit⟩
    · exact .inr ⟨r, .inr ⟨i, hi, hr⟩, ht⟩

/-- A step whose next state has a fault has taken one of its faults, and changed nothing else. -/
theorem step_faulted_fails {s t : State} (hstep : step s = .next t) (hf : t.fault ≠ none) :
    ∃ r, StepFails s r ∧ t = s.takeFault r := by
  obtain ⟨⟨-, hnone⟩, -⟩ := step_cases hstep
  obtain ⟨i, -, hcommit⟩ | hfails := step_commits_or_fails hstep
  · obtain ⟨hkeep, -⟩ := hcommit.keeps_fault
    exact absurd (hkeep.trans hnone) hf
  · exact hfails

theorem ReadFails.kind_ne_decodeError {s : State} {p : ReadParam} {r : Raised} (h : ReadFails s p r) :
    r.kind ≠ .decodeError := by
  obtain ⟨-, -, rfl⟩ := h
  nofun

theorem WriteFails.kind_ne_decodeError {s : State} {c : WriteParam} {k : Nat} {r : Raised} (h : WriteFails s c k r) :
    r.kind ≠ .decodeError := by
  obtain ⟨-, rfl⟩ | ⟨-, -, rfl⟩ := h <;> nofun

/-- No instruction raises DecodeError: it is a fault of the fetch alone. -/
theorem ExecFails.kind_ne_decodeError {s : State} {i : Instr} {r : Raised} (h : ExecFails s i r) :
    r.kind ≠ .decodeError := by
  cases i with
  | add a b c | mul a b c =>
    obtain ha | ⟨_, -, hb⟩ | ⟨_, _, -, -, hc⟩ := h
    · exact ha.kind_ne_decodeError
    · exact hb.kind_ne_decodeError
    · exact hc.kind_ne_decodeError
  | inp c =>
    obtain hc | ⟨_, -, -, rfl⟩ := h
    · exact hc.kind_ne_decodeError
    · nofun
  | out a => exact ReadFails.kind_ne_decodeError h
  | hlt => exact h.elim

/-- An instruction refers to an address by a read parameter in position mode or by its write target. -/
def RefersTo (i : Instr) (a : Int) : Prop :=
  (∃ p : ReadParam, p.mode = .position ∧ a = p.raw ∧
    ((∃ q c, i = .add p q c ∨ i = .add q p c ∨ i = .mul p q c ∨ i = .mul q p c) ∨ i = .out p)) ∨
  (∃ c, storeTarget i = some c ∧ c.digit = 0 ∧ a = c.raw)

/-- An instruction raises OutOfBounds of an address that it refers to and that is not in memory. -/
theorem ExecFails.outOfBounds {s : State} {i : Instr} {r : Raised} (h : ExecFails s i r) (hk : r.kind = .outOfBounds) :
    ∃ a : Int, r.info = some a ∧ ¬ s.mem.InBounds a ∧ RefersTo i a := by
  have read : ∀ {p}, ReadFails s p r →
      ((∃ q c, i = .add p q c ∨ i = .add q p c ∨ i = .mul p q c ∨ i = .mul q p c) ∨ i = .out p) →
      ∃ a : Int, r.info = some a ∧ ¬ s.mem.InBounds a ∧ RefersTo i a := by
    rintro p ⟨hm, hout, rfl⟩ hi
    exact ⟨p.raw, rfl, hout, .inl ⟨p, hm, rfl, hi⟩⟩
  have write : ∀ {c k}, WriteFails s c k r → storeTarget i = some c →
      ∃ a : Int, r.info = some a ∧ ¬ s.mem.InBounds a ∧ RefersTo i a := by
    rintro c k (⟨-, rfl⟩ | ⟨hd, hout, rfl⟩) hi
    · cases hk
    · exact ⟨c.raw, rfl, hout, .inr ⟨c, hi, hd, rfl⟩⟩
  cases i with
  | add a b c =>
    obtain ha | ⟨_, -, hb⟩ | ⟨_, _, -, -, hc⟩ := h
    · exact read ha (.inl ⟨b, c, .inl rfl⟩)
    · exact read hb (.inl ⟨a, c, .inr (.inl rfl)⟩)
    · exact write hc rfl
  | mul a b c =>
    obtain ha | ⟨_, -, hb⟩ | ⟨_, _, -, -, hc⟩ := h
    · exact read ha (.inl ⟨b, c, .inr (.inr (.inl rfl))⟩)
    · exact read hb (.inl ⟨a, c, .inr (.inr (.inr rfl))⟩)
    · exact write hc rfl
  | inp c =>
    obtain hc | ⟨_, -, -, rfl⟩ := h
    · exact write hc rfl
    · cases hk
  | out a => exact read h (.inr rfl)
  | hlt => exact h.elim

/-- An integer that fails the bounds check is below zero or at or beyond `N`. -/
theorem Memory.outside_of_not_inBounds {m : Memory} {a : Int} (h : ¬ m.InBounds a) : a < 0 ∨ (m.size : Int) ≤ a := by
  simp only [Memory.InBounds] at h
  omega

/-! ## What no step reads -/

/-- A state with another log and another `fault_info`. -/
def State.withRecord (s : State) (log : List (Nat × Int)) (info : Option Int) : State :=
  { s with outlog := log, faultInfo := info }

/-- The fetch reads neither. -/
theorem fetchInstr_withRecord (s : State) (log : List (Nat × Int)) (info : Option Int) :
    fetchInstr (s.withRecord log info) = fetchInstr s := rfl

/-- The same pairs are appended to the other log; `fault_info` is that of the fault, where there is one, and is left alone
where there is none. -/
def StepsAlike (s t : State) (log : List (Nat × Int)) (info : Option Int) (o : Host.Outcome State Fault Refusal) : Prop :=
  ∃ pairs, t.outlog = s.outlog ++ pairs ∧
    ((t.fault = s.fault ∧ o = .next (t.withRecord (log ++ pairs) info)) ∨
      (t.fault ≠ none ∧ o = .next (t.withRecord (log ++ pairs) t.faultInfo)))

theorem StepsAlike.of_same_log {s t : State} {log : List (Nat × Int)} {info : Option Int}
    {o : Host.Outcome State Fault Refusal} (hlog : t.outlog = s.outlog) (hfault : t.fault = s.fault)
    (ho : o = .next (t.withRecord log info)) : StepsAlike s t log info o :=
  ⟨[], by rw [hlog, List.append_nil], .inl ⟨hfault, by rw [ho, List.append_nil]⟩⟩

/-- A fault taken in both states is the same fault. -/
theorem stepsAlike_takeFault (s : State) (r : Raised) (log : List (Nat × Int)) (info : Option Int) :
    StepsAlike s (s.takeFault r) log info (.next ((s.withRecord log info).takeFault r)) :=
  ⟨[], by simp, .inr ⟨nofun, by simp [State.withRecord, State.takeFault]⟩⟩

/-- A commit reads neither: its operands, its target and the queue are those of the other state. -/
theorem Commits.stepsAlike {s t : State} {i : Instr} (h : Commits s i t) (log : List (Nat × Int)) (info : Option Int) :
    StepsAlike s t log info (exec i (s.withRecord log info)) := by
  cases i with
  | add a b c | mul a b c =>
    obtain ⟨va, vb, x, ha, hb, hc, rfl⟩ := h
    exact .of_same_log rfl rfl (exec_of_commits (s := s.withRecord log info) ⟨va, vb, x, ha, hb, hc, rfl⟩)
  | inp c =>
    obtain ⟨x, v, rest, hc, hq, rfl⟩ := h
    exact .of_same_log rfl rfl (exec_of_commits (s := s.withRecord log info) ⟨x, v, rest, hc, hq, rfl⟩)
  | out a =>
    obtain ⟨v, ha, rfl⟩ := h
    exact ⟨[(s.ip, v)], rfl, .inl ⟨rfl, exec_of_commits (s := s.withRecord log info) ⟨v, ha, rfl⟩⟩⟩
  | hlt =>
    cases h
    exact .of_same_log rfl rfl rfl

/-- The step reads neither. -/
theorem step_withRecord {s t : State} (hstep : step s = .next t) (log : List (Nat × Int)) (info : Option Int) :
    StepsAlike s t log info (step (s.withRecord log info)) := by
  obtain ⟨hr, -⟩ := step_cases hstep
  rw [step_of_running hr] at hstep
  rw [step_of_running (s := s.withRecord log info) hr, fetchInstr_withRecord]
  cases hf : fetchInstr s with
  | error r =>
    rw [hf] at hstep
    cases hstep
    exact stepsAlike_takeFault s r log info
  | ok i =>
    rw [hf] at hstep
    obtain hcommit | ⟨r, hfail, rfl⟩ := exec_commits_or_fails hstep
    · exact hcommit.stepsAlike log info
    · have hfail' : exec i (s.withRecord log info) = _ := exec_of_fails (s := s.withRecord log info) hfail
      simp only [hfail']
      exact stepsAlike_takeFault s r log info

end Sys2Proof.Machine

namespace Sys2Proof

open Sys2Proof.Machine

/-- Settles O22: the fetch reads the cells that decode. -/
theorem stepRunsTheDecodedInstruction : Obligations.StepRunsTheDecodedInstruction := by
  intro s i rest hr h
  rw [step_of_running hr, fetchInstr_of_decode h]

/-- Settles O23: the fetch answers or faults, and so does the instruction. -/
theorem runningMachineAlwaysSteps : Obligations.RunningMachineAlwaysSteps := fun _ => step_next_of_running

/-- Settles O24, by the entry check of the step. -/
theorem terminalMachineTakesNoStep : Obligations.TerminalMachineTakesNoStep :=
  fun s => ⟨fun hh => by simp [step, hh], fun k hh hk => by simp [step, hh, hk]⟩

/-- Settles O29, with the pairs that the step appends to its own log. -/
theorem logAndFaultInfoAreNeverRead : Obligations.LogAndFaultInfoAreNeverRead := by
  intro s t log info hr hstep
  obtain ⟨pairs, hlog, ⟨hkeep, hu⟩ | ⟨hfault, hu⟩⟩ := step_withRecord hstep log info
  · have hnone : t.fault = none := hkeep.trans hr.2
    exact ⟨pairs, _, hlog, hu, rfl, fun hf => absurd hnone hf, fun _ => rfl⟩
  · exact ⟨pairs, _, hlog, hu, rfl, fun _ => rfl, fun hnone => absurd hnone hfault⟩

/-- Settles O30: a fault is taken in the state at the start of the step. -/
theorem faultEntryChangesOnlyTheFaultRegisters : Obligations.FaultEntryChangesOnlyTheFaultRegisters := by
  intro s t _ hstep hf
  obtain ⟨r, rfl⟩ := step_faulted hstep hf
  rfl

/-- Settles O31: the fetch rejects exactly the words of the three cases, and nothing after it raises DecodeError. -/
theorem decodeErrorInItsThreeCases : Obligations.DecodeErrorInItsThreeCases := by
  intro s hr hip
  constructor
  · intro hw
    obtain ⟨e, he⟩ := decodeWord_rejects_iff.mpr hw
    exact step_of_rejected hr hip he
  · intro hstep
    obtain ⟨r, hr, ht⟩ := step_faulted_fails hstep nofun
    have hkind : r.kind = .decodeError := (Option.some.inj (congrArg State.fault ht)).symm
    obtain (⟨-, rfl⟩ | ⟨-, he, -⟩ | ⟨-, _, _, -, -, -, -, -, rfl⟩) | ⟨i, -, hi⟩ := hr
    · cases hkind
    · exact decodeWord_rejects_iff.mp he
    · cases hkind
    · exact absurd hkind hi.kind_ne_decodeError

/-- Settles O32: the two places of the fetch, and the two of the instruction. -/
theorem outOfBoundsInItsFourPlaces : Obligations.OutOfBoundsInItsFourPlaces := by
  intro s t _ hstep hf
  obtain ⟨r, hr, rfl⟩ := step_faulted_fails hstep (by simp [hf])
  have hkind : r.kind = .outOfBounds := Option.some.inj hf
  obtain (⟨hout, rfl⟩ | ⟨-, -, rfl⟩ | ⟨-, h, k, hd, hk, hn, hout, hlow, rfl⟩) | ⟨i, hi, hfail⟩ := hr
  · exact ⟨s.ip, rfl, .inr (by omega), .inl rfl⟩
  · cases hkind
  · exact ⟨(s.ip + k : Nat), rfl, .inr (by omega), .inr (.inl ⟨h, k, hd, hk, hn, rfl, hlow⟩)⟩
  · obtain ⟨a, hinfo, hout, ⟨p, hm, ha, hplace⟩ | ⟨c, hc, hd, ha⟩⟩ := hfail.outOfBounds hkind
    · exact ⟨a, hinfo, Memory.outside_of_not_inBounds hout, .inr (.inr (.inl ⟨i, p, hi, hm, ha, hplace⟩))⟩
    · exact ⟨a, hinfo, Memory.outside_of_not_inBounds hout, .inr (.inr (.inr ⟨i, c, hi, hc, hd, ha⟩))⟩

end Sys2Proof
end

section
/-! PROOFS. The obligations about the invariant (10_state.md R22, 60_exceptions.md R76), the canonical memory (20_memory.md section
1) and the reset (70_reset_and_hazards.md R94). -/

namespace Sys2Proof.Machine

/-! ## Canonical memories -/

/-- A canonical list gives no content to an address below its first. -/
theorem lookupCell_below {hi lo a : Nat} {cells : List (Nat × Int)} (h : cellsWf hi lo cells = true) (ha : a < lo) :
    lookupCell cells a = Config.unlistedCell := by
  induction cells generalizing lo with
  | nil => rfl
  | cons c rest ih =>
    obtain ⟨b, v⟩ := c
    obtain ⟨hb, -, -, hrest⟩ := cellsWf_cons.mp h
    rw [lookupCell, if_neg (by omega)]
    exact ih hrest (by omega)

/-- Nor to an address at or beyond the length of memory. -/
theorem lookupCell_beyond {hi lo a : Nat} {cells : List (Nat × Int)} (h : cellsWf hi lo cells = true) (ha : hi ≤ a) :
    lookupCell cells a = Config.unlistedCell := by
  induction cells generalizing lo with
  | nil => rfl
  | cons c rest ih =>
    obtain ⟨b, v⟩ := c
    obtain ⟨-, hb, -, hrest⟩ := cellsWf_cons.mp h
    rw [lookupCell, if_neg (by omega)]
    exact ih hrest

/-- A canonical list whose cells all lie behind the first cell of another does not have its contents. -/
theorem lookupCell_ne_of_behind_head {hi lo b : Nat} {v : Int} {rest cells : List (Nat × Int)}
    (h : cellsWf hi lo ((b, v) :: rest) = true) (hc : cellsWf hi (b + 1) cells = true) :
    lookupCell ((b, v) :: rest) ≠ lookupCell cells := by
  obtain ⟨-, -, hv, -⟩ := cellsWf_cons.mp h
  intro heq
  have hb := congrFun heq b
  rw [lookupCell_below hc (Nat.lt_succ_self b), lookupCell, if_pos rfl] at hb
  exact hv hb

/-- Two canonical lists with the same contents are the same list. -/
theorem cells_eq_of_lookupCell_eq {hi lo : Nat} {cells cells' : List (Nat × Int)} (h : cellsWf hi lo cells = true)
    (h' : cellsWf hi lo cells' = true) (heq : lookupCell cells = lookupCell cells') : cells = cells' := by
  induction cells generalizing lo cells' with
  | nil =>
    cases cells' with
    | nil => rfl
    | cons c' rest' =>
      obtain ⟨b', v'⟩ := c'
      exact absurd heq.symm (lookupCell_ne_of_behind_head h' rfl)
  | cons c rest ih =>
    obtain ⟨b, v⟩ := c
    obtain ⟨hb, hbhi, hv, hrest⟩ := cellsWf_cons.mp h
    cases cells' with
    | nil => exact absurd heq (lookupCell_ne_of_behind_head h rfl)
    | cons c' rest' =>
      obtain ⟨b', v'⟩ := c'
      obtain ⟨hb', hbhi', hv', hrest'⟩ := cellsWf_cons.mp h'
      obtain hlt | rfl | hgt := Nat.lt_trichotomy b b'
      · exact absurd heq (lookupCell_ne_of_behind_head h (cellsWf_cons.mpr ⟨hlt, hbhi', hv', hrest'⟩))
      · have hvv : v = v' := by simpa [lookupCell] using congrFun heq b
        have hrests : lookupCell rest = lookupCell rest' := by
          funext a
          by_cases ha : b = a
          · subst ha
            rw [lookupCell_below hrest (Nat.lt_succ_self b), lookupCell_below hrest' (Nat.lt_succ_self b)]
          · simpa [lookupCell, ha] using congrFun heq a
        rw [hvv, ih hrest hrest' hrests]
      · exact absurd heq.symm (lookupCell_ne_of_behind_head h' (cellsWf_cons.mpr ⟨hgt, hbhi, hv, hrest⟩))

/-- Two canonical memories with the same cells are the same memory. -/
theorem Memory.eq_of_toList_eq {m n : Memory} (hm : m.wf = true) (hn : n.wf = true) (h : m.toList = n.toList) : m = n := by
  have hsize : m.size = n.size := by rw [← m.toList_length, h, n.toList_length]
  have hget : lookupCell m.cells = lookupCell n.cells := by
    funext a
    by_cases ha : a < m.size
    · have hcell := m.toList_getElem? a
      rw [h, n.toList_getElem?, if_pos ha, if_pos (hsize ▸ ha)] at hcell
      exact (Option.some.inj hcell).symm
    · rw [lookupCell_beyond hm (Nat.le_of_not_lt ha), lookupCell_beyond hn (hsize ▸ Nat.le_of_not_lt ha)]
  have hcells : m.cells = n.cells := cells_eq_of_lookupCell_eq hm (hsize ▸ hn) hget
  obtain ⟨_, _⟩ := m
  obtain ⟨_, _⟩ := n
  cases hsize
  cases hcells
  rfl

/-- The sequence of cells of a loaded memory is the image. -/
theorem Memory.toList_ofList (image : List Int) : (Memory.ofList image).toList = image :=
  List.ext_getElem (by simp) fun a _ ha => by rw [Memory.toList_getElem, Memory.get_ofList image a ha]

/-! ## What a commit does to each component -/

/-- A commit stores at the target of the instruction, or leaves memory alone. -/
theorem Commits.mem {s t : State} {i : Instr} (h : Commits s i t) :
    t.mem = s.mem ∨ ∃ c a v, storeTarget i = some c ∧ TargetIs s c a ∧ t.mem = s.mem.set a v := by
  cases i with
  | add a b c =>
    obtain ⟨va, vb, x, -, -, hc, rfl⟩ := h
    exact .inr ⟨c, x, aluAdd va vb, rfl, hc, rfl⟩
  | mul a b c =>
    obtain ⟨va, vb, x, -, -, hc, rfl⟩ := h
    exact .inr ⟨c, x, aluMul va vb, rfl, hc, rfl⟩
  | inp c =>
    obtain ⟨x, v, rest, hc, -, rfl⟩ := h
    exact .inr ⟨c, x, v, rfl, hc, rfl⟩
  | out a =>
    obtain ⟨v, -, rfl⟩ := h
    exact .inl rfl
  | hlt =>
    cases h
    exact .inl rfl

/-- A commit moves `ip` past the instruction. -/
theorem Commits.ip {s t : State} {i : Instr} (h : Commits s i t) : t.ip = s.ip + i.length := by
  cases i with
  | add a b c | mul a b c =>
    obtain ⟨_, _, _, -, -, -, rfl⟩ := h
    rfl
  | inp c =>
    obtain ⟨_, _, _, -, -, rfl⟩ := h
    rfl
  | out a =>
    obtain ⟨_, -, rfl⟩ := h
    rfl
  | hlt =>
    cases h
    rfl

/-- A commit leaves the log alone, or appends one pair at the instruction's own address. -/
theorem Commits.outlog {s t : State} {i : Instr} (h : Commits s i t) :
    t.outlog = s.outlog ∨ ∃ v, t.outlog = s.outlog ++ [(s.ip, v)] := by
  cases i with
  | add a b c | mul a b c =>
    obtain ⟨_, _, _, -, -, -, rfl⟩ := h
    exact .inl rfl
  | inp c =>
    obtain ⟨_, _, _, -, -, rfl⟩ := h
    exact .inl rfl
  | out a =>
    obtain ⟨v, -, rfl⟩ := h
    exact .inr ⟨v, rfl⟩
  | hlt =>
    cases h
    exact .inl rfl

/-! ## The fault record tells the truth (60_exceptions.md R76 to R80) -/

theorem ReadFails.recordOk {s : State} {p : ReadParam} {r : Raised} (h : ReadFails s p r) :
    FaultRecordOk (s.takeFault r) := by
  obtain ⟨-, hout, rfl⟩ := h
  exact ⟨p.raw, rfl, Memory.outside_of_not_inBounds hout⟩

theorem WriteFails.recordOk {s : State} {c : WriteParam} {k : Nat} {r : Raised} (h : WriteFails s c k r)
    (hk : k = 1 ∨ k = 3) : FaultRecordOk (s.takeFault r) := by
  obtain ⟨-, rfl⟩ | ⟨-, hout, rfl⟩ := h
  · obtain rfl | rfl := hk
    · exact .inl rfl
    · exact .inr rfl
  · exact ⟨c.raw, rfl, Memory.outside_of_not_inBounds hout⟩

theorem ExecFails.recordOk {s : State} {i : Instr} {r : Raised} (h : ExecFails s i r) :
    FaultRecordOk (s.takeFault r) := by
  cases i with
  | add a b c | mul a b c =>
    obtain ha | ⟨_, -, hb⟩ | ⟨_, _, -, -, hc⟩ := h
    · exact ha.recordOk
    · exact hb.recordOk
    · exact hc.recordOk (.inr rfl)
  | inp c =>
    obtain hc | ⟨_, -, hq, rfl⟩ := h
    · exact hc.recordOk (.inl rfl)
    · exact ⟨rfl, hq⟩
  | out a => exact ReadFails.recordOk h
  | hlt => exact h.elim

/-- What a step records of its fault is true of the state it leaves. -/
theorem StepFails.recordOk {s : State} {r : Raised} (h : StepFails s r) : FaultRecordOk (s.takeFault r) := by
  obtain (⟨hout, rfl⟩ | ⟨hip, he, rfl⟩ | ⟨-, _, k, -, -, -, hout, -, rfl⟩) | ⟨i, -, hi⟩ := h
  · exact ⟨s.ip, rfl, .inr (Int.ofNat_le.mpr hout)⟩
  · exact ⟨hip, rfl, he⟩
  · exact ⟨(s.ip + k : Nat), rfl, .inr (Int.ofNat_le.mpr hout)⟩
  · exact hi.recordOk

/-- Without a fault the record is empty. -/
theorem faultRecordOk_none {s : State} (h : s.fault = none) : FaultRecordOk s ↔ s.faultInfo = none := by
  simp [FaultRecordOk, h]

/-! ## The invariant -/

/-- A commit keeps the invariant: its store keeps the canonical form, `ip` passes an instruction that lies in memory, and a pair
it appends stands at the address just passed. -/
theorem Commits.keeps_inv {s t : State} {i : Instr} (hinv : s.Inv) (hr : s.Running) (hi : fetchInstr s = .ok i)
    (h : Commits s i t) : t.Inv := by
  obtain ⟨hwf, -, -, hrec, hrising, hpassed⟩ := hinv
  obtain ⟨hfault, hinfo⟩ := h.keeps_fault
  obtain ⟨-, hlen, -⟩ := fetchInstr_eq_ok hi
  have hip := h.ip
  have hsize : t.mem.size = s.mem.size := by
    obtain hmem | ⟨_, _, _, -, -, hmem⟩ := h.mem <;> simp [hmem]
  have hnone : t.fault = none := hfault.trans hr.2
  have hpos : 0 < i.length := Nat.succ_pos _
  constructor
  case memWf =>
    obtain hmem | ⟨_, a, v, -, -, hmem⟩ := h.mem
    · exact hmem ▸ hwf
    · exact hmem ▸ Memory.wf_set a v hwf
  case ipInside => omega
  case notBoth => exact fun hboth => hboth.2 hnone
  case record => exact (faultRecordOk_none hnone).mpr (hinfo.trans ((faultRecordOk_none hr.2).mp hrec))
  case logRising =>
    obtain hlog | ⟨v, hlog⟩ := h.outlog
    · exact hlog ▸ hrising
    · rw [hlog, List.map_append, List.pairwise_append]
      refine ⟨hrising, List.pairwise_singleton _ _, ?_⟩
      simp only [List.mem_map, List.map_cons, List.map_nil, List.mem_singleton]
      rintro _ ⟨p, hp, rfl⟩ _ rfl
      exact hpassed p hp
  case logPassed =>
    intro p hp
    have hp' : p ∈ s.outlog ∨ p.1 = s.ip := by
      obtain hlog | ⟨v, hlog⟩ := h.outlog
      · exact .inl (hlog ▸ hp)
      · rw [hlog, List.mem_append, List.mem_singleton] at hp
        exact hp.imp_right fun he => by rw [he]
    obtain hp' | hp' := hp'
    · have := hpassed p hp'
      omega
    · omega

/-- The entry of a fault keeps the invariant: it writes the record alone, in a state that was not halted. -/
theorem StepFails.keeps_inv {s : State} {r : Raised} (hinv : s.Inv) (hr : s.Running) (h : StepFails s r) :
    (s.takeFault r).Inv := by
  obtain ⟨hwf, hip, -, -, hrising, hpassed⟩ := hinv
  exact ⟨hwf, hip, fun hboth => by simp [hr.1] at hboth, h.recordOk, hrising, hpassed⟩

theorem step_keeps_inv {s t : State} (hinv : s.Inv) (hstep : step s = .next t) : t.Inv := by
  obtain ⟨hr, -⟩ := step_cases hstep
  obtain ⟨i, hi, hcommit⟩ | ⟨r, hfail, rfl⟩ := step_commits_or_fails hstep
  · exact hcommit.keeps_inv hinv hr hi
  · exact hfail.keeps_inv hinv hr

/-- LOAD establishes the invariant. -/
theorem load_inv (image : List Int) : (State.load image).Inv where
  memWf     := Memory.wf_ofList image
  ipInside  := Nat.zero_le _
  notBoth   := nofun
  record    := rfl
  logRising := List.Pairwise.nil
  logPassed := nofun

/-- ENQ on a running machine keeps it: the queue is spoken of only where a fault is recorded. -/
theorem enqueue_keeps_inv {s : State} (hinv : s.Inv) (hr : s.Running) (v : Int) : (s.enqueue v).Inv := by
  obtain ⟨hwf, hip, hboth, hrec, hrising, hpassed⟩ := hinv
  refine ⟨hwf, hip, hboth, ?_, hrising, hpassed⟩
  exact (faultRecordOk_none (s := s.enqueue v) hr.2).mpr ((faultRecordOk_none hr.2).mp hrec)

end Sys2Proof.Machine

namespace Sys2Proof

open Sys2Proof.Machine

/-- Settles O39, by the two endings of a step. -/
theorem stepKeepsTheInvariant : Obligations.StepKeepsTheInvariant := fun _ _ => step_keeps_inv

/-- Settles O10, by induction along both lists of cells. -/
theorem canonicalMemoriesAreEqual : Obligations.CanonicalMemoriesAreEqual := fun _ _ => Memory.eq_of_toList_eq

/-- Settles O37: the loaded memory is the image cell for cell, and every other component is a constant. -/
theorem loadResetsEverything : Obligations.LoadResetsEverything := fun image _ =>
  ⟨_, rfl, Memory.toList_ofList image, rfl, Memory.wf_ofList image, rfl, rfl, rfl, rfl, rfl, rfl⟩

/-- Settles O38: the reset state is LOAD of the empty image. -/
theorem resetMeetsTheInvariant : Obligations.ResetMeetsTheInvariant := load_inv []

end Sys2Proof
end

section
/-! PROOFS. The obligations about the host commands and the run (70_reset_and_hazards.md sections 3 and 5, 40_execution_loop.md R63):
what a terminal machine answers, what every command keeps, and how a run ends. -/

namespace Sys2Proof.Machine

/-! ## A terminal machine -/

theorem guarded_halted {s : State} (h : s.halted = true) (go : State × Status) : guarded s go = (s, .alreadyHalted) :=
  if_pos h

theorem guarded_faulted {s : State} {k : FaultKind} (h : s.halted = false) (hk : s.fault = some k) (go : State × Status) :
    guarded s go = (s, .fault k) := by
  simp [guarded, h, hk]

/-- A status of Ok means that the machine can step again. -/
theorem statusOf_eq_ok_iff (s : State) : s.statusOf = .ok ↔ s.Running := by
  unfold State.statusOf
  cases hf : s.fault with
  | some k => simp [State.Running, hf]
  | none => cases hh : s.halted <;> simp [State.Running, hf, hh]

/-- The guard never answers Ok for a terminal machine. -/
theorem guarded_terminal_ne_ok {s : State} (h : s.Terminal) (go : State × Status) : (guarded s go).2 ≠ .ok := by
  cases hh : s.halted with
  | true =>
    rw [guarded_halted hh]
    nofun
  | false =>
    obtain ⟨k, hk⟩ : ∃ k, s.fault = some k := by
      simpa [State.Terminal, hh, Option.ne_none_iff_exists'] using h
    rw [guarded_faulted hh hk]
    nofun

/-- Every command but LOAD leaves a terminal machine as it is. -/
theorem command_terminal {s : State} (h : s.Terminal) {c : Command} (hc : ∀ image, c ≠ .load image) :
    (command c s).1 = s := by
  cases c with
  | load image => exact absurd rfl (hc image)
  | enq v => exact hostEnq_terminal h v
  | step => exact hostStep_terminal h
  | run inputs => exact hostRun_terminal h inputs
  | peek a => rfl
  | log => rfl
  | status => rfl

/-! ## What every step keeps, every command but LOAD keeps -/

section Kept

variable {P : State → Prop} (henq : ∀ s v, s.Running → P s → P (s.enqueue v))
  (hstep : ∀ s t, P s → step s = .next t → P t)

include hstep

theorem stepState_keeps {s : State} (h : P s) : P (stepState s) := by
  obtain hs | hs := running_or_terminal s
  · obtain ⟨t, ht⟩ := step_next_of_running hs
    rw [stepState_of_next ht]
    exact hstep s t h ht
  · rwa [stepState_terminal hs]

theorem runSteps_keeps (n : Nat) {s : State} (h : P s) : P (runSteps n s) := by
  induction n generalizing s with
  | zero => exact h
  | succ n ih =>
    obtain hs | hs := running_or_terminal s
    · rw [runSteps_running n hs]
      exact ih (stepState_keeps hstep h)
    · rwa [runSteps_terminal _ hs]

include henq

omit hstep in
theorem enqueueAll_keeps (vs : List Int) {s : State} (hs : s.Running) (h : P s) : P (s.enqueueAll vs) := by
  induction vs generalizing s with
  | nil => exact h
  | cons v vs ih => exact ih (s := s.enqueue v) hs (henq s v hs h)

/-- A property that every step keeps, and every ENQ on a running machine, is kept by every command but LOAD. -/
theorem command_keeps {c : Command} (hc : ∀ image, c ≠ .load image) {s : State} (h : P s) : P (command c s).1 := by
  obtain hs | hs := running_or_terminal s
  · cases c with
    | load image => exact absurd rfl (hc image)
    | enq v =>
      simp only [command, hostEnq_running hs]
      exact henq s v hs h
    | step =>
      simp only [command, hostStep_running hs]
      exact stepState_keeps hstep h
    | run inputs =>
      simp only [command, hostRun_running hs]
      exact runSteps_keeps hstep _ (enqueueAll_keeps henq inputs hs h)
    | peek a => exact h
    | log => exact h
    | status => exact h
  · rwa [command_terminal hs hc]

end Kept

/-! ## What every step keeps -/

/-- A step leaves memory alone, or stores one cell at the write target of the instruction it fetched. -/
theorem step_mem {s t : State} (hstep : step s = .next t) :
    t.mem = s.mem ∨
      ∃ i c a v, fetchInstr s = .ok i ∧ storeTarget i = some c ∧ TargetIs s c a ∧ t.mem = s.mem.set a v := by
  obtain ⟨i, hi, hcommit⟩ | ⟨r, -, rfl⟩ := step_commits_or_fails hstep
  · obtain hmem | ⟨c, a, v, hc, ha, hmem⟩ := hcommit.mem
    · exact .inl hmem
    · exact .inr ⟨i, c, a, v, hi, hc, ha, hmem⟩
  · exact .inl rfl

theorem step_mem_size {s t : State} (hstep : step s = .next t) : t.mem.size = s.mem.size := by
  obtain hmem | ⟨_, _, _, _, -, -, -, hmem⟩ := step_mem hstep <;> simp [hmem]

theorem step_outlog_prefix {s t : State} (hstep : step s = .next t) : s.outlog <+: t.outlog := by
  obtain ⟨i, -, hcommit⟩ | ⟨r, -, rfl⟩ := step_commits_or_fails hstep
  · obtain hlog | ⟨v, hlog⟩ := hcommit.outlog
    · exact hlog ▸ List.prefix_rfl
    · exact hlog ▸ List.prefix_append _ _
  · exact List.prefix_rfl

/-- A step leaves the queue alone or takes its head. -/
theorem step_inq {s t : State} (hstep : step s = .next t) : t.inq = s.inq ∨ t.inq = s.inq.tail := by
  by_cases hq : t.inq = s.inq
  · exact .inl hq
  · obtain ⟨_, _, _, -, -, hin, -⟩ := step_changes_inq hstep hq
    exact .inr (by rw [hin, List.tail_cons])

/-! ## Runs -/

/-- Enqueueing changes nothing that the bound on a run depends on. -/
theorem runBound_enqueueAll (s : State) (vs : List Int) : runBound (s.enqueueAll vs) = runBound s := by
  rw [enqueueAll_eq]
  rfl

theorem enqueueAll_running {s : State} (h : s.Running) (vs : List Int) : (s.enqueueAll vs).Running := by
  rw [enqueueAll_eq]
  exact h

theorem run_ends (s : State) : (run s).Terminal := runSteps_ends le_rfl

/-- A run that starts in a running state has a last step. -/
theorem runSteps_last_step {n : Nat} {s : State} (hs : s.Running) (hend : (runSteps n s).Terminal) :
    ∃ u, step u = .next (runSteps n s) := by
  induction n generalizing s with
  | zero => exact (not_running_and_terminal hs hend).elim
  | succ n ih =>
    obtain ⟨t, ht⟩ := step_next_of_running hs
    rw [runSteps_running n hs, stepState_of_next ht] at hend ⊢
    obtain htr | htt := running_or_terminal t
    · exact ih htr hend
    · rw [runSteps_terminal n htt]
      exact ⟨s, ht⟩

/-- STEP until the status is not Ok is the run loop with the status of its last state (R99, R62). -/
theorem stepUntil_eq_runSteps {n : Nat} {s : State} (hs : s.Running) (hend : (runSteps n s).Terminal) :
    stepUntil n s = (runSteps n s, (runSteps n s).statusOf) := by
  induction n generalizing s with
  | zero => exact (not_running_and_terminal hs hend).elim
  | succ n ih =>
    rw [runSteps_running n hs] at hend ⊢
    rw [stepUntil, hostStep_running hs]
    obtain ht | ht := running_or_terminal (stepState s)
    · rw [if_pos ((statusOf_eq_ok_iff _).mpr ht)]
      exact ih ht hend
    · rw [if_neg fun hok => not_running_and_terminal ((statusOf_eq_ok_iff _).mp hok) ht, runSteps_terminal n ht]

/-- ENQ of each input on a running machine enqueues them all. -/
theorem applyAll_enq_running {s : State} (hs : s.Running) (vs : List Int) :
    applyAll (vs.map .enq) s = s.enqueueAll vs := by
  induction vs generalizing s with
  | nil => rfl
  | cons v vs ih =>
    have hv : Action.apply (.enq v) s = s.enqueue v := by rw [Action.apply, hostEnq_running hs]
    rw [List.map_cons, applyAll, hv]
    exact ih (s := s.enqueue v) hs

/-- Every ENQ leaves a terminal machine as it is. -/
theorem applyAll_enq_terminal {s : State} (hs : s.Terminal) (vs : List Int) : applyAll (vs.map .enq) s = s := by
  induction vs with
  | nil => rfl
  | cons v vs ih =>
    have hv : Action.apply (.enq v) s = s := hostEnq_terminal hs v
    rw [List.map_cons, applyAll, hv, ih]

/-! ## How a run ends -/

/-- The step that halts is the step of a HLT word, and leaves `ip` just past it. -/
theorem step_halts {s t : State} (hstep : step s = .next t) (hh : t.halted = true) :
    fetchInstr s = .ok .hlt ∧ t = s.halt.advance 1 := by
  obtain ⟨⟨hs, -⟩, -⟩ := step_cases hstep
  have not_halted : t.halted ≠ s.halted := by simp [hh, hs]
  obtain ⟨i, hi, hcommit⟩ | ⟨r, -, rfl⟩ := step_commits_or_fails hstep
  · cases i with
    | add a b c | mul a b c =>
      obtain ⟨_, _, _, -, -, -, rfl⟩ := hcommit
      exact absurd rfl not_halted
    | inp c =>
      obtain ⟨_, _, _, -, -, rfl⟩ := hcommit
      exact absurd rfl not_halted
    | out a =>
      obtain ⟨_, -, rfl⟩ := hcommit
      exact absurd rfl not_halted
    | hlt => exact ⟨hi, hcommit⟩
  · exact absurd rfl not_halted

/-- A faulting step can be taken again from the state it leaves, the fault cleared: that state differs from the one before in
`fault_info` at most, which no step reads. -/
theorem step_fault_again {s t : State} (hstep : step s = .next t) (hf : t.fault ≠ none) :
    step { t with fault := none, faultInfo := none } = .next t := by
  obtain ⟨⟨-, hnone⟩, -⟩ := step_cases hstep
  obtain ⟨pairs, hlog, ⟨hkeep, -⟩ | ⟨-, hagain⟩⟩ := step_withRecord hstep s.outlog none
  · exact absurd (hkeep.trans hnone) hf
  · obtain ⟨r, rfl⟩ := step_faulted hstep hf
    have hs : s.withRecord s.outlog none = { s.takeFault r with fault := none, faultInfo := none } := by
      simp [State.withRecord, State.takeFault, hnone]
    rw [← hs, hagain, ← hlog]
    rfl

end Sys2Proof.Machine

namespace Sys2Proof

open Sys2Proof.Machine

/-- Settles O13: a step stores at most one cell, at the target of its instruction, and a store keeps the length. -/
theorem onlyStoresMutateMemory : Obligations.OnlyStoresMutateMemory := by
  refine ⟨fun c s hc => ?_, fun s t hstep => ⟨step_mem_size hstep, fun x hx => ?_⟩, fun c s hload hstep hrun => ?_⟩
  · exact command_keeps (P := fun t => t.mem.size = s.mem.size) (fun _ _ _ h => h)
      (fun _ _ h ht => (step_mem_size ht).trans h) hc rfl
  · obtain hmem | ⟨i, c, a, v, hi, hc, ⟨-, hraw, -⟩, hmem⟩ := step_mem hstep
    · exact absurd (by rw [hmem]) hx
    · refine ⟨i, c, hi, hc, ?_⟩
      by_contra hne
      exact hx (by rw [hmem, Memory.get_set_other s.mem v (by omega)])
  · cases c with
    | load image => exact absurd rfl (hload image)
    | enq v =>
      obtain hs | hs := running_or_terminal s
      · simp [command, hostEnq_running hs]
      · rw [command_terminal hs hload]
    | step => exact absurd rfl hstep
    | run inputs => exact absurd rfl (hrun inputs)
    | peek a => rfl
    | log => rfl
    | status => rfl

/-- Settles O40: LOAD establishes the invariant, and the step lemma carries it through every other command. -/
theorem commandsKeepTheInvariant : Obligations.CommandsKeepTheInvariant := by
  refine ⟨fun c s h => ?_, fun image _ => load_inv image⟩
  by_cases hc : ∀ image, c ≠ .load image
  · exact command_keeps (P := State.Inv) (fun _ v hs h => enqueue_keeps_inv h hs v) (fun _ _ => step_keeps_inv) hc h
  · obtain ⟨image, rfl⟩ := not_forall_not.mp hc
    exact load_inv image

/-- Settles O41: no step starts from a terminal state, and a step appends to the log. -/
theorem statusIsStickyAndTheLogGrows : Obligations.StatusIsStickyAndTheLogGrows := by
  intro c s hc
  refine ⟨fun hh => ?_, fun k hk => ?_, ?_, ?_⟩
  · rwa [command_terminal (.inl hh) hc]
  · rwa [command_terminal (.inr (by simp [hk])) hc]
  · exact command_keeps (P := fun t => s.outlog <+: t.outlog) (fun _ _ _ h => h)
      (fun _ _ h ht => h.trans (step_outlog_prefix ht)) hc List.prefix_rfl
  · rintro rfl
    obtain hs | hs := running_or_terminal s
    · obtain ⟨t, ht⟩ := step_next_of_running hs
      simp only [command, hostStep_running hs, stepState_of_next ht]
      exact step_inq ht
    · rw [command_terminal hs hc]
      exact .inl rfl

/-- Settles O43: a run repeats the step as often as its bound allows, and from LOAD the bound is `ceil(N/2) + 1`. -/
theorem everyRunEnds : Obligations.EveryRunEnds := by
  refine ⟨run_ends, fun image inputs => runSteps_ends ?_⟩
  rw [runBound_enqueueAll]
  exact le_rfl

/-- Settles O44: the two loops take the same steps, and on a terminal machine neither takes any. -/
theorem runIsEnqueueingThenStepping : Obligations.RunIsEnqueueingThenStepping := by
  intro inputs s
  obtain hs | hs := running_or_terminal s
  · rw [hostRun_running hs]
    refine ⟨fun n hn => ?_, fun hok => ?_⟩
    · have hn' : runBound (s.enqueueAll inputs) ≤ n := by rwa [runBound_enqueueAll]
      rw [applyAll_enq_running hs, stepUntil_eq_runSteps (enqueueAll_running hs inputs) (runSteps_ends hn'),
        runSteps_eq_run hn']
    · exact not_running_and_terminal ((statusOf_eq_ok_iff _).mp hok) (run_ends _)
  · refine ⟨fun n hn => ?_, guarded_terminal_ne_ok hs _⟩
    cases n with
    | zero => simp [runBound] at hn
    | succ n =>
      have hne : (hostStep s).2 ≠ .ok := guarded_terminal_ne_ok hs _
      rw [applyAll_enq_terminal hs, stepUntil, if_neg hne]
      exact (guarded_terminal hs _ _).1

/-- Settles O45, by the guard of the three commands that could act. -/
theorem terminalMachineIsImmutable : Obligations.TerminalMachineIsImmutable := fun _ _ _ hs =>
  ⟨fun _ hc => command_terminal hs hc,
    fun hh => ⟨guarded_halted hh _, guarded_halted hh _, guarded_halted hh _⟩,
    fun _ hh hk => ⟨guarded_faulted hh hk _, guarded_faulted hh hk _, guarded_faulted hh hk _⟩⟩

/-- Settles O46: on a running machine the guard lets the command through, and the status is read off the next state. -/
theorem enqAndStepOnARunningMachine : Obligations.EnqAndStepOnARunningMachine := by
  intro s hs
  refine ⟨hostEnq_running hs, ?_⟩
  obtain ⟨t, ht⟩ := step_next_of_running hs
  refine ⟨t, t.statusOf, ht, ?_, ?_, ?_, ?_⟩
  · rw [hostStep_running hs, stepState_of_next ht]
  · intro k hk
    simp [State.statusOf, hk]
  · intro hf hh
    simp [State.statusOf, hf, hh]
  · intro hf hh
    simp [State.statusOf, hf, hh]

/-- Settles O47: PEEK is one bounds-checked read, LOG and STATUS copy components. -/
theorem inspectionShowsAndChangesNothing : Obligations.InspectionShowsAndChangesNothing := by
  intro s a
  refine ⟨⟨hostPeek a s, rfl, fun h0 hN => ?_, fun hout => ?_⟩, rfl, hostStatus s, rfl, rfl, rfl, rfl, rfl, rfl, rfl⟩
  · obtain ⟨v, hv, hread⟩ := memRead_eq_toList_getElem (s := s) ⟨h0, hN⟩
    exact ⟨v, hv, by rw [hostPeek, hread]⟩
  · rw [hostPeek, memRead_outside s (Memory.not_inBounds_of_outside hout)]

/-- Settles O48, by the last step of the run: it executed HLT, or it took the fault. -/
theorem runEndsAtAHltOrAtTheFaultingInstruction : Obligations.RunEndsAtAHltOrAtTheFaultingInstruction := by
  intro s hs
  obtain ⟨u, hu⟩ := runSteps_last_step hs (run_ends s)
  change step u = .next (run s) at hu
  refine ⟨fun ⟨hh, _⟩ => ?_, fun hfail => ?_⟩
  · obtain ⟨hi, hend⟩ := step_halts hu hh
    obtain ⟨hd, hlen, -⟩ := fetchInstr_eq_ok hi
    obtain ⟨h0, -, -⟩ := decodeWord_eq_ok hd
    rw [hend]
    exact ⟨u.ip, rfl, hlen, h0, decodeWord_opcodeField hd⟩
  · have hf : (run s).fault ≠ none := fun hnone => (run_ends s).elim (fun hh => hfail ⟨hh, hnone⟩) fun hf => hf hnone
    exact ⟨hf, step_fault_again hu hf⟩

end Sys2Proof
end

section
/-! PROOFS. The obligations about histories of ENQ and STEP from LOAD (42_io.md section 3, 10_state.md R22 item 8): a law of one step
from any state, and its sum over a history. -/

namespace Sys2Proof.Machine

/-! ## What a step completes -/

/-- A step from any state completes an instruction, by its commit, or completes none, and then changes at most the fault
register and its information. -/
theorem completedInstr_cases (s : State) :
    (∃ i, completedInstr s = some i ∧ Commits s i (stepState s)) ∨
    (completedInstr s = none ∧ (stepState s = s ∨ ∃ r, stepState s = s.takeFault r)) := by
  obtain hs | hs := running_or_terminal s
  · obtain ⟨t, ht⟩ := step_next_of_running hs
    rw [completedInstr, if_pos hs, stepState_of_next ht]
    obtain ⟨i, hi, hcommit⟩ | ⟨r, -, rfl⟩ := step_commits_or_fails ht
    · obtain ⟨hkeep, -⟩ := hcommit.keeps_fault
      have hnone : t.fault = none := hkeep.trans hs.2
      exact .inl ⟨i, by simp [hi, hnone], hcommit⟩
    · refine .inr ⟨?_, .inr ⟨r, rfl⟩⟩
      cases fetchInstr s <;> simp
  · refine .inr ⟨?_, .inl (stepState_terminal hs)⟩
    rw [completedInstr, if_neg fun h => not_running_and_terminal h hs]

/-- The operand of a completed OUT is the value its mode names in the state before. -/
theorem OperandIs.eq_of_position {s : State} {p v : Int} (h : OperandIs s ⟨.position, p⟩ v) : v = s.mem.get p.toNat := by
  obtain ⟨h, -⟩ | ⟨-, -, -, h⟩ := h
  · cases h
  · exact h

theorem OperandIs.eq_of_immediate {s : State} {p v : Int} (h : OperandIs s ⟨.immediate, p⟩ v) : v = p := by
  obtain ⟨-, h⟩ | ⟨h, -⟩ := h
  · exact h
  · cases h

/-! ## The laws of one step -/

theorem inputStored_append_inq (s : State) : inputStored s ++ (stepState s).inq = s.inq := by
  unfold inputStored
  obtain ⟨i, hi, hcommit⟩ | ⟨hnone, hstep⟩ := completedInstr_cases s
  · rw [hi]
    cases i with
    | add a b c | mul a b c =>
      obtain ⟨_, _, _, -, -, -, ht⟩ := hcommit
      rw [ht]
      rfl
    | inp c =>
      obtain ⟨a, v, rest, hc, hq, ht⟩ := hcommit
      simp [ht, hq, hc.get_set v]
    | out a =>
      obtain ⟨_, -, ht⟩ := hcommit
      rw [ht]
      rfl
    | hlt =>
      rw [show stepState s = _ from hcommit]
      rfl
  · rw [hnone]
    obtain ht | ⟨r, ht⟩ := hstep <;> rw [ht] <;> rfl

theorem stepState_outlog (s : State) : (stepState s).outlog = s.outlog ++ pairEmitted s := by
  unfold pairEmitted
  obtain ⟨i, hi, hcommit⟩ | ⟨hnone, hstep⟩ := completedInstr_cases s
  · rw [hi]
    cases i with
    | add a b c | mul a b c =>
      obtain ⟨_, _, _, -, -, -, ht⟩ := hcommit
      simp [ht]
    | inp c =>
      obtain ⟨_, _, _, -, -, ht⟩ := hcommit
      simp [ht]
    | out a =>
      obtain ⟨v, ha, ht⟩ := hcommit
      obtain ⟨m, p⟩ := a
      cases m with
      | position => rw [ht, ha.eq_of_position]; rfl
      | immediate => rw [ht, ha.eq_of_immediate]; rfl
    | hlt =>
      rw [show stepState s = _ from hcommit]
      simp
  · rw [hnone]
    obtain ht | ⟨r, ht⟩ := hstep <;> simp [ht]

theorem stepState_ip (s : State) : (stepState s).ip = s.ip + cellsPassed s := by
  unfold cellsPassed
  obtain ⟨i, hi, hcommit⟩ | ⟨hnone, hstep⟩ := completedInstr_cases s
  · rw [hi]
    exact hcommit.ip
  · rw [hnone]
    obtain ht | ⟨r, ht⟩ := hstep <;> rw [ht] <;> rfl

/-! ## Over a history -/

theorem Action.apply_step (s : State) : Action.apply .step s = stepState s := by
  obtain hs | hs := running_or_terminal s
  · rw [Action.apply, hostStep_running hs]
  · rw [stepState_terminal hs]
    exact hostStep_terminal hs

/-- ENQ changes nothing but the queue, and that only of a running machine. -/
theorem Action.apply_enq (v : Int) (s : State) :
    Action.apply (.enq v) s = { s with inq := s.inq ++ if s.Running then [v] else [] } := by
  obtain hs | hs := running_or_terminal s
  · rw [Action.apply, hostEnq_running hs, if_pos hs]
    rfl
  · rw [if_neg fun h => not_running_and_terminal h hs, List.append_nil]
    exact hostEnq_terminal hs v

theorem gather_inputStored (h : List Action) (s : State) :
    gather inputStored h s ++ (applyAll h s).inq = s.inq ++ enqueuedBy h s := by
  induction h generalizing s with
  | nil => simp [gather, applyAll, enqueuedBy]
  | cons x xs ih =>
    cases x with
    | enq v =>
      rw [gather, applyAll, enqueuedBy, ih, Action.apply_enq, List.append_assoc]
    | step =>
      rw [gather, applyAll, enqueuedBy, List.append_assoc, ih, ← List.append_assoc, Action.apply_step, inputStored_append_inq]

theorem applyAll_outlog (h : List Action) (s : State) :
    (applyAll h s).outlog = s.outlog ++ gather pairEmitted h s := by
  induction h generalizing s with
  | nil => simp [gather, applyAll]
  | cons x xs ih =>
    cases x with
    | enq v => rw [gather, applyAll, ih, Action.apply_enq]
    | step => rw [gather, applyAll, ih, Action.apply_step, stepState_outlog, List.append_assoc]

theorem applyAll_ip (h : List Action) (s : State) :
    (applyAll h s).ip = s.ip + (gather (fun s => [cellsPassed s]) h s).sum := by
  induction h generalizing s with
  | nil => simp [gather, applyAll]
  | cons x xs ih =>
    cases x with
    | enq v => rw [gather, applyAll, ih, Action.apply_enq]
    | step =>
      rw [gather, applyAll, ih, Action.apply_step, stepState_ip, List.sum_append, List.sum_singleton, Nat.add_assoc]

end Sys2Proof.Machine

namespace Sys2Proof

open Sys2Proof.Machine

/-- Settles O52, by the commit of an IN. -/
theorem stepTakesTheInputItStores : Obligations.StepTakesTheInputItStores := inputStored_append_inq

/-- Settles O53, by the commit of an OUT. -/
theorem stepAppendsThePairItEmits : Obligations.StepAppendsThePairItEmits := stepState_outlog

/-- Settles O49: the law of one step, summed over a history that starts with an empty queue. -/
theorem inputsAreConsumedInFifoOrder : Obligations.InputsAreConsumedInFifoOrder := fun image h =>
  gather_inputStored h (State.load image)

/-- Settles O50: the law of one step, summed over a history that starts with an empty log. -/
theorem logListsTheCompletedOutputs : Obligations.LogListsTheCompletedOutputs := fun image h =>
  applyAll_outlog h (State.load image)

/-- Settles O51: the law of one step, summed over a history that starts at address 0. -/
theorem pointerSumsTheLengths : Obligations.PointerSumsTheLengths := fun image h =>
  (applyAll_ip h (State.load image)).trans (Nat.zero_add _)

end Sys2Proof
end

section
/-! PROOFS. The obligations about a store seen by the next fetch (20_memory.md R39), the fault priority table (60_exceptions.md R83)
and the fault codes (60_exceptions.md R76). -/

namespace Sys2Proof.Machine

/-! ## The next fetch -/

/-- Each parameter of a fetched instruction is the cell at its place. -/
theorem fetchInstr_param {s : State} {i : Instr} (h : fetchInstr s = .ok i) {k : Nat} (hk : k < i.params.length) :
    i.params[k]? = some (s.mem.get (s.ip + (k + 1))) := by
  obtain ⟨-, -, hp⟩ := fetchInstr_eq_ok h
  rw [i.params_length] at hk
  simp [hp, hk]

/-- The fetch of a word inside memory is stages B and C on that word. -/
theorem fetchInstr_inside {s : State} (hip : s.ip < s.mem.size) :
    fetchInstr s = (do let h ← decodeStage (s.mem.get s.ip); fetchParams s h) := by
  rw [fetchInstr, memRead_nat, if_pos hip, stage_ok]

/-- A non-negative word that is 99 modulo 100 is HLT's, whatever its other digits. -/
theorem decodeWord_hlt {w : Int} (h0 : 0 ≤ w) (h : w % 100 = 99) : decodeWord w = .ok .hlt :=
  decodeWord_of_opcode (op := .hlt) h0 (by rw [Opcode.number]; omega)

theorem step_of_hlt_word {s : State} (hr : s.Running) (hip : s.ip < s.mem.size) (h0 : 0 ≤ s.mem.get s.ip)
    (h : s.mem.get s.ip % 100 = 99) : step s = .next (s.halt.advance 1) := by
  rw [step_of_running hr, fetchInstr_of_decoded hip (decodeWord_hlt h0 h)]
  rfl

/-! ## The rows of the priority table -/

/-- The first row of a table whose condition holds. -/
def firstRow (rows : List (Bool × Raised)) : Option Raised := (rows.find? Prod.fst).map Prod.snd

/-- A table decides a step: its first row that holds is a fault of the step, and where none holds the step commits. -/
def Decides (s : State) (rows : List (Bool × Raised)) : Prop :=
  match firstRow rows with
  | some r => StepFails s r
  | none => ∃ i t, fetchInstr s = .ok i ∧ Commits s i t

theorem Decides.nil {s t : State} {i : Instr} (hi : fetchInstr s = .ok i) (h : Commits s i t) : Decides s [] :=
  ⟨i, t, hi, h⟩

/-- One row: where it holds it is a fault of the step, and where it does not the rows below decide. -/
theorem Decides.cons {s : State} {b : Bool} {r : Raised} {rows : List (Bool × Raised)}
    (hb : b = true → StepFails s r) (h : b = false → Decides s rows) : Decides s ((b, r) :: rows) := by
  cases b with
  | true => exact hb rfl
  | false => exact h rfl

/-- A row that does not apply. -/
theorem Decides.skip {s : State} {r : Raised} {rows : List (Bool × Raised)} (h : Decides s rows) :
    Decides s ((false, r) :: rows) := h

theorem Decides.fails {s : State} {r : Raised} {rows : List (Bool × Raised)} (h : Decides s rows)
    (hr : firstRow rows = some r) : StepFails s r := by
  rwa [Decides, hr] at h

theorem Decides.commits {s : State} {rows : List (Bool × Raised)} (h : Decides s rows) (hr : firstRow rows = none) :
    ∃ i t, fetchInstr s = .ok i ∧ Commits s i t := by
  rwa [Decides, hr] at h

theorem notAddress_iff (s : State) (p : Int) : notAddress s p = true ↔ ¬ s.mem.InBounds p := by
  simp only [notAddress, Bool.or_eq_true, decide_eq_true_eq, Memory.InBounds]
  omega

theorem notAddress_eq_false_iff (s : State) (p : Int) : notAddress s p = false ↔ s.mem.InBounds p := by
  rw [← Bool.not_eq_true, notAddress_iff, not_not]

/-- The row of a read parameter: position mode, and no address. -/
theorem readFails_of_row {s : State} {m : Mode} {p : Int} (h : (decide (m.toDigit = 0) && notAddress s p) = true) :
    ReadFails s ⟨m, p⟩ ⟨.outOfBounds, some p⟩ := by
  cases m with
  | position => exact ⟨rfl, (notAddress_iff s p).mp h, rfl⟩
  | immediate => cases h

theorem operandIs_of_row {s : State} {m : Mode} {p : Int} (h : (decide (m.toDigit = 0) && notAddress s p) = false) :
    ∃ v, OperandIs s ⟨m, p⟩ v := by
  cases m with
  | position =>
    obtain ⟨h0, hN⟩ := (notAddress_eq_false_iff s p).mp h
    exact ⟨_, .inr ⟨rfl, h0, hN, rfl⟩⟩
  | immediate => exact ⟨p, .inl ⟨rfl, rfl⟩⟩

/-- The two rows of a write target: a mode digit that is not 0, then no address. -/
theorem writeFails_of_mode_row {s : State} {d k : Nat} {p : Int} (h : decide (d ≠ 0) = true) :
    WriteFails s ⟨d, p⟩ k ⟨.invalidWriteMode, some (k : Int)⟩ := .inl ⟨of_decide_eq_true h, rfl⟩

theorem writeFails_of_address_row {s : State} {d k : Nat} {p : Int} (h : (decide (d = 0) && notAddress s p) = true) :
    WriteFails s ⟨d, p⟩ k ⟨.outOfBounds, some p⟩ := by
  obtain ⟨hd, hp⟩ := Bool.and_eq_true_iff.mp h
  exact .inr ⟨of_decide_eq_true hd, (notAddress_iff s p).mp hp, rfl⟩

theorem targetIs_of_rows {s : State} {d : Nat} {p : Int} (hmode : decide (d ≠ 0) = false)
    (h : (decide (d = 0) && notAddress s p) = false) : ∃ t, TargetIs s ⟨d, p⟩ t := by
  have hd : d = 0 := not_not.mp (of_decide_eq_false hmode)
  rw [decide_eq_true hd, Bool.true_and, notAddress_eq_false_iff] at h
  obtain ⟨h0, hN⟩ := h
  exact ⟨p.toNat, hd, (Int.toNat_of_nonneg h0).symm, by omega⟩

/-- The row of parameter cell `k`, the cells before it being in memory. -/
theorem stepFails_of_param_row {s : State} {h : Head} {k : Nat} (hip : s.ip < s.mem.size)
    (hd : decodeWord (s.mem.get s.ip) = .ok h) (hk : 1 ≤ k ∧ k ≤ h.opcode.nparams)
    (hlow : ∀ j, 1 ≤ j → j < k → s.ip + j < s.mem.size) (hrow : decide (s.mem.size ≤ s.ip + k) = true) :
    StepFails s ⟨.outOfBounds, some ((s.ip + k : Nat) : Int)⟩ :=
  .inl (.inr (.inr ⟨hip, h, k, hd, hk.1, hk.2, of_decide_eq_true hrow, hlow, rfl⟩))

/-- The rows of ADD and MUL with the modes `a`, `b` and the write digit `c`, below the decoder's: the parameter cells, then the
operands and the target. -/
def binaryRows (s : State) (a b : Mode) (c : Nat) : List (Bool × Raised) :=
  [ (decide (s.mem.size ≤ s.ip + 1), ⟨.outOfBounds, some ((s.ip + 1 : Nat) : Int)⟩),
    (decide (s.mem.size ≤ s.ip + 2), ⟨.outOfBounds, some ((s.ip + 2 : Nat) : Int)⟩),
    (decide (s.mem.size ≤ s.ip + 3), ⟨.outOfBounds, some ((s.ip + 3 : Nat) : Int)⟩),
    (decide (a.toDigit = 0) && notAddress s (s.mem.get (s.ip + 1)), ⟨.outOfBounds, some (s.mem.get (s.ip + 1))⟩),
    (false, ⟨.invalidWriteMode, some 1⟩),
    (false, ⟨.outOfBounds, some (s.mem.get (s.ip + 1))⟩),
    (decide (b.toDigit = 0) && notAddress s (s.mem.get (s.ip + 2)), ⟨.outOfBounds, some (s.mem.get (s.ip + 2))⟩),
    (decide (c ≠ 0), ⟨.invalidWriteMode, some 3⟩),
    (decide (c = 0) && notAddress s (s.mem.get (s.ip + 3)), ⟨.outOfBounds, some (s.mem.get (s.ip + 3))⟩),
    (false, ⟨.inputExhausted, none⟩) ]

theorem decides_binaryRows {s : State} {a b : Mode} {c : Nat} {mk : ReadParam → ReadParam → WriteParam → Instr}
    (hmk : mk = .add ∨ mk = .mul) (hip : s.ip < s.mem.size)
    (hd : decodeWord (s.mem.get s.ip) = .ok (mk ⟨a, 0⟩ ⟨b, 0⟩ ⟨c, 0⟩).head) : Decides s (binaryRows s a b c) := by
  have hn : (mk ⟨a, 0⟩ ⟨b, 0⟩ ⟨c, 0⟩).head.opcode.nparams = 3 := by obtain rfl | rfl := hmk <;> rfl
  refine .cons (stepFails_of_param_row hip hd (by omega) fun j _ _ => by omega) fun h1 => ?_
  have h1 := Nat.not_le.mp (of_decide_eq_false h1)
  refine .cons (stepFails_of_param_row hip hd (by omega) fun j _ _ => by omega) fun h2 => ?_
  have h2 := Nat.not_le.mp (of_decide_eq_false h2)
  refine .cons (stepFails_of_param_row hip hd (by omega) fun j _ _ => by omega) fun h3 => ?_
  have h3 := Nat.not_le.mp (of_decide_eq_false h3)
  have hi : fetchInstr s =
      .ok (mk ⟨a, s.mem.get (s.ip + 1)⟩ ⟨b, s.mem.get (s.ip + 2)⟩ ⟨c, s.mem.get (s.ip + 3)⟩) := by
    obtain rfl | rfl := hmk <;> exact fetchInstr_of_cells hd h3 rfl
  have fails {r} (h : BinaryFails s ⟨a, s.mem.get (s.ip + 1)⟩ ⟨b, s.mem.get (s.ip + 2)⟩ ⟨c, s.mem.get (s.ip + 3)⟩ r) :
      StepFails s r := .inr ⟨_, hi, by obtain rfl | rfl := hmk <;> exact h⟩
  refine .cons (fun h => fails (.inl (readFails_of_row h))) fun ha => .skip (.skip ?_)
  obtain ⟨va, ha⟩ := operandIs_of_row ha
  refine .cons (fun h => fails (.inr (.inl ⟨va, ha, readFails_of_row h⟩))) fun hb => ?_
  obtain ⟨vb, hb⟩ := operandIs_of_row hb
  refine .cons (fun h => fails (.inr (.inr ⟨va, vb, ha, hb, writeFails_of_mode_row h⟩))) fun hc => ?_
  refine .cons (fun h => fails (.inr (.inr ⟨va, vb, ha, hb, writeFails_of_address_row h⟩))) fun hc' => .skip ?_
  obtain ⟨t, hc⟩ := targetIs_of_rows hc hc'
  obtain rfl | rfl := hmk <;> exact .nil hi ⟨va, vb, t, ha, hb, hc, rfl⟩

/-- The rows of IN with the write digit `c`, below the decoder's: the parameter cell, the target, the queue. -/
def inRows (s : State) (c : Nat) : List (Bool × Raised) :=
  [ (decide (s.mem.size ≤ s.ip + 1), ⟨.outOfBounds, some ((s.ip + 1 : Nat) : Int)⟩),
    (false, ⟨.outOfBounds, some ((s.ip + 2 : Nat) : Int)⟩),
    (false, ⟨.outOfBounds, some ((s.ip + 3 : Nat) : Int)⟩),
    (false, ⟨.outOfBounds, some (s.mem.get (s.ip + 1))⟩),
    (decide (c ≠ 0), ⟨.invalidWriteMode, some 1⟩),
    (decide (c = 0) && notAddress s (s.mem.get (s.ip + 1)), ⟨.outOfBounds, some (s.mem.get (s.ip + 1))⟩),
    (false, ⟨.outOfBounds, some (s.mem.get (s.ip + 2))⟩),
    (false, ⟨.invalidWriteMode, some 3⟩),
    (false, ⟨.outOfBounds, some (s.mem.get (s.ip + 3))⟩),
    (s.inq.isEmpty, ⟨.inputExhausted, none⟩) ]

theorem decides_inRows {s : State} {c : Nat} (hip : s.ip < s.mem.size)
    (hd : decodeWord (s.mem.get s.ip) = .ok (.inp c)) : Decides s (inRows s c) := by
  refine .cons (stepFails_of_param_row hip hd ⟨le_rfl, le_rfl⟩ fun j _ _ => by omega) fun h1 => .skip (.skip (.skip ?_))
  have hi : fetchInstr s = .ok (.inp ⟨c, s.mem.get (s.ip + 1)⟩) :=
    fetchInstr_of_cells hd (Nat.not_le.mp (of_decide_eq_false h1)) rfl
  have fails {r} (h : InFails s ⟨c, s.mem.get (s.ip + 1)⟩ r) : StepFails s r := .inr ⟨_, hi, h⟩
  refine .cons (fun h => fails (.inl (writeFails_of_mode_row h))) fun hc => ?_
  refine .cons (fun h => fails (.inl (writeFails_of_address_row h))) fun hc' => .skip (.skip (.skip ?_))
  obtain ⟨t, hc⟩ := targetIs_of_rows hc hc'
  refine .cons (fun h => fails (.inr ⟨t, hc, List.isEmpty_iff.mp h, rfl⟩)) fun hq => ?_
  obtain ⟨x, rest, hq⟩ := List.exists_cons_of_ne_nil (List.isEmpty_eq_false_iff.mp hq)
  exact .nil hi ⟨t, x, rest, hc, hq, rfl⟩

/-- The rows of OUT with the mode `a`, below the decoder's: the parameter cell, the operand. -/
def outRows (s : State) (a : Mode) : List (Bool × Raised) :=
  [ (decide (s.mem.size ≤ s.ip + 1), ⟨.outOfBounds, some ((s.ip + 1 : Nat) : Int)⟩),
    (false, ⟨.outOfBounds, some ((s.ip + 2 : Nat) : Int)⟩),
    (false, ⟨.outOfBounds, some ((s.ip + 3 : Nat) : Int)⟩),
    (decide (a.toDigit = 0) && notAddress s (s.mem.get (s.ip + 1)), ⟨.outOfBounds, some (s.mem.get (s.ip + 1))⟩),
    (false, ⟨.invalidWriteMode, some 1⟩),
    (false, ⟨.outOfBounds, some (s.mem.get (s.ip + 1))⟩),
    (false, ⟨.outOfBounds, some (s.mem.get (s.ip + 2))⟩),
    (false, ⟨.invalidWriteMode, some 3⟩),
    (false, ⟨.outOfBounds, some (s.mem.get (s.ip + 3))⟩),
    (false, ⟨.inputExhausted, none⟩) ]

theorem decides_outRows {s : State} {a : Mode} (hip : s.ip < s.mem.size)
    (hd : decodeWord (s.mem.get s.ip) = .ok (.out a)) : Decides s (outRows s a) := by
  refine .cons (stepFails_of_param_row hip hd ⟨le_rfl, le_rfl⟩ fun j _ _ => by omega) fun h1 => .skip (.skip ?_)
  have hi : fetchInstr s = .ok (.out ⟨a, s.mem.get (s.ip + 1)⟩) :=
    fetchInstr_of_cells hd (Nat.not_le.mp (of_decide_eq_false h1)) rfl
  refine .cons (fun h => .inr ⟨_, hi, readFails_of_row h⟩) fun ha => .skip (.skip (.skip (.skip (.skip (.skip ?_)))))
  obtain ⟨v, ha⟩ := operandIs_of_row ha
  exact .nil hi ⟨v, ha, rfl⟩

/-- A recognized opcode picks its rows. -/
theorem opcodeIn_eq {w : Int} {n : Nat} (h0 : 0 ≤ w) (hop : w.toNat % 100 = n) (ops : List Nat) :
    opcodeIn w ops = ops.contains n := by
  rw [opcodeIn, hop, decide_eq_true h0, Bool.true_and]

/-- The table's rows below the decoder's four. -/
def operandRows (s : State) : List (Bool × Raised) := (priorityTable s).drop 4

theorem operandRows_binary {s : State} {a b : Mode} {c : Nat} {mk : ReadParam → ReadParam → WriteParam → Instr}
    (hmk : mk = .add ∨ mk = .mul) (hd : decodeWord (s.mem.get s.ip) = .ok (mk ⟨a, 0⟩ ⟨b, 0⟩ ⟨c, 0⟩).head) :
    operandRows s = binaryRows s a b c := by
  obtain ⟨h0, hop, -⟩ := decodeWord_eq_ok hd
  obtain rfl | rfl := hmk
  all_goals
    obtain ⟨ha, hb, hc⟩ : a.toDigit = _ ∧ b.toDigit = _ ∧ c = _ := decodeWord_digits hd
    simp [operandRows, priorityTable, opcodeIn_eq h0 hop, Opcode.number, Head.opcode, Instr.head, ← ha, ← hb, ← hc,
      binaryRows]

theorem operandRows_inp {s : State} {c : Nat}
    (hd : decodeWord (s.mem.get s.ip) = .ok (.inp c)) : operandRows s = inRows s c := by
  obtain ⟨h0, hop, -⟩ := decodeWord_eq_ok hd
  have hc : c = (s.mem.get s.ip).toNat / 100 % 10 := decodeWord_digits hd
  simp [operandRows, priorityTable, opcodeIn_eq h0 hop, Opcode.number, Head.opcode, ← hc, inRows]

theorem operandRows_out {s : State} {a : Mode}
    (hd : decodeWord (s.mem.get s.ip) = .ok (.out a)) : operandRows s = outRows s a := by
  obtain ⟨h0, hop, -⟩ := decodeWord_eq_ok hd
  have ha : a.toDigit = (s.mem.get s.ip).toNat / 100 % 10 := decodeWord_digits hd
  simp [operandRows, priorityTable, opcodeIn_eq h0 hop, Opcode.number, Head.opcode, ← ha, outRows]

theorem firstRow_operandRows_hlt {s : State} (hd : decodeWord (s.mem.get s.ip) = .ok .hlt) :
    firstRow (operandRows s) = none := by
  obtain ⟨h0, hop, -⟩ := decodeWord_eq_ok hd
  simp [operandRows, priorityTable, firstRow, opcodeIn_eq h0 hop, Opcode.number, Head.opcode]

/-- The rows below the decoder's decide the step of a word that decodes, opcode by opcode. -/
theorem decides_operandRows {s : State} {h : Head} (hip : s.ip < s.mem.size)
    (hd : decodeWord (s.mem.get s.ip) = .ok h) : Decides s (operandRows s) := by
  cases h with
  | add a b c =>
    rw [operandRows_binary (mk := .add) (.inl rfl) hd]
    exact decides_binaryRows (mk := .add) (.inl rfl) hip hd
  | mul a b c =>
    rw [operandRows_binary (mk := .mul) (.inr rfl) hd]
    exact decides_binaryRows (mk := .mul) (.inr rfl) hip hd
  | inp c =>
    rw [operandRows_inp hd]
    exact decides_inRows hip hd
  | out a =>
    rw [operandRows_out hd]
    exact decides_outRows hip hd
  | hlt =>
    rw [Decides, firstRow_operandRows_hlt hd]
    exact ⟨.hlt, _, fetchInstr_of_cells hd hip rfl, rfl⟩

/-- The decoder's three rows hold of the words that it rejects. -/
theorem rejectedWord_iff_rows (w : Int) : RejectedWord w ↔
    decide (w < 0) = true ∨ (! opcodeIn w [1, 2, 3, 4, 99]) = true ∨
    ((opcodeIn w [1, 2, 4] && decide (1 < w.toNat / 10 ^ (1 + 1) % 10)) ||
      (opcodeIn w [1, 2] && decide (1 < w.toNat / 10 ^ (2 + 1) % 10))) = true := by
  simp only [RejectedWord, ne_eq, decide_eq_true_eq, opcodeIn, List.contains_eq_mem, List.mem_cons, List.not_mem_nil,
    or_false, Bool.decide_or, Bool.not_and, Bool.not_or, Bool.or_eq_true, Bool.not_eq_eq_eq_not, Bool.not_true,
    decide_eq_false_iff_not, not_le, Bool.and_eq_true, Nat.reduceAdd, Nat.reducePow]
  omega

/-- The table decides the step: the fetch of the word, its decoding, then the rows of its opcode. -/
theorem decides_priorityTable (s : State) : Decides s (priorityTable s) := by
  refine .cons (fun h => .inl (.inl ⟨of_decide_eq_true h, rfl⟩)) fun hip => ?_
  have hip := Nat.not_le.mp (of_decide_eq_false hip)
  have rejected (h : RejectedWord (s.mem.get s.ip)) : StepFails s ⟨.decodeError, some (s.mem.get s.ip)⟩ :=
    .inl (.inr (.inl ⟨hip, decodeWord_rejects_iff.mpr h, rfl⟩))
  have hrows := rejectedWord_iff_rows (s.mem.get s.ip)
  refine .cons (fun h => rejected (hrows.mpr (.inl h))) fun h2 => ?_
  refine .cons (fun h => rejected (hrows.mpr (.inr (.inl h)))) fun h3 => ?_
  refine .cons (fun h => rejected (hrows.mpr (.inr (.inr h)))) fun h4 => ?_
  have accepted : ¬ RejectedWord (s.mem.get s.ip) := by
    rw [hrows, not_or, not_or, Bool.not_eq_true, Bool.not_eq_true, Bool.not_eq_true]
    exact ⟨h2, h3, h4⟩
  obtain ⟨h, hd⟩ := decodeWord_of_not_rejectedWord accepted
  exact decides_operandRows hip hd

/-! ## A fault of the step is taken -/

/-- Stage C stops at the lowest parameter cell that is not in memory. -/
theorem fetchInstr_of_missing {s : State} {h : Head} {k : Nat} (hip : s.ip < s.mem.size)
    (hd : decodeWord (s.mem.get s.ip) = .ok h) (hk : 1 ≤ k) (hn : k ≤ h.opcode.nparams) (hout : s.mem.size ≤ s.ip + k)
    (hlow : ∀ j, 1 ≤ j → j < k → s.ip + j < s.mem.size) :
    fetchInstr s = .error ⟨.outOfBounds, some ((s.ip + k : Nat) : Int)⟩ := by
  cases hf : fetchInstr s with
  | ok i =>
    obtain ⟨hd', hlen, -⟩ := fetchInstr_eq_ok hf
    cases hd.symm.trans hd'
    have hlen' : i.length = i.opcode.nparams + 1 := rfl
    rw [Instr.head_opcode] at hn
    omega
  | error r =>
    obtain ⟨hout', -⟩ | ⟨-, ⟨e, he⟩, -⟩ | ⟨-, _, k', -, hk', -, hout', hlow', rfl⟩ := fetchInstr_eq_error hf
    · omega
    · cases he.symm.trans hd
    · have hle : k ≤ k' := Nat.le_of_not_lt fun hlt => absurd (hlow k' hk' hlt) (by omega)
      have hge : k' ≤ k := Nat.le_of_not_lt fun hlt => absurd (hlow' k hk hlt) (by omega)
      rw [Nat.le_antisymm hle hge]

theorem fetchInstr_of_fails {s : State} {r : Raised} (h : FetchFails s r) : fetchInstr s = .error r := by
  obtain ⟨hout, rfl⟩ | ⟨hip, ⟨e, he⟩, rfl⟩ | ⟨hip, _, k, hd, hk, hn, hout, hlow, rfl⟩ := h
  · exact fetchInstr_outside hout
  · exact fetchInstr_of_rejected hip he
  · exact fetchInstr_of_missing hip hd hk hn hout hlow

/-- A running machine takes each fault of its step. -/
theorem step_of_fails {s : State} {r : Raised} (hr : s.Running) (h : StepFails s r) : step s = .next (s.takeFault r) := by
  rw [step_of_running hr]
  obtain hfetch | ⟨i, hi, hexec⟩ := h
  · rw [fetchInstr_of_fails hfetch]
  · rw [hi]
    exact exec_of_fails hexec

/-! ## The codes of the fault kinds (60_exceptions.md R76) -/

/-- The fault register's value that a code stands for. -/
def faultOfCode : Nat → Option FaultKind
  | 1 => some .decodeError
  | 2 => some .outOfBounds
  | 3 => some .invalidWriteMode
  | 4 => some .inputExhausted
  | _ => none

theorem faultOfCode_faultCode : Function.LeftInverse faultOfCode faultCode := by
  rintro (_ | _ | _ | _ | _) <;> rfl

end Sys2Proof.Machine

namespace Sys2Proof

open Sys2Proof.Machine

/-- Settles O28: the storing step commits one cell, and the next fetch reads that cell, as the word or as a parameter. -/
theorem storeIsSeenByTheNextFetch : Obligations.StoreIsSeenByTheNextFetch := by
  intro i c s x v hs hi hi' hc hv
  obtain ⟨t, hstep, ht, hip, hmem⟩ := step_stores hs hi hi' hc hv
  have hx : x < t.mem.size := by rw [hmem, Memory.set_size]; exact hc.lt
  have hget : t.mem.get x = v := by rw [hmem, Memory.get_set_self s.mem x v hc.lt]
  refine ⟨t, hstep, ht, hip, ?_, ?_, ?_⟩
  · rw [memRead_nat, if_pos hx, hget]
  · rintro rfl
    refine ⟨hget ▸ fetchInstr_inside hx, fun e he => ?_, fun h0 h99 => ?_⟩
    · rw [← hget] at he ⊢
      exact step_of_rejected ht hx he
    · rw [← hget] at h0 h99
      exact step_of_hlt_word ht hx h0 h99
  · intro j hj
    refine ⟨by rw [step_of_running ht, hj], ?_, fun k hk hlen => ?_⟩
    · rintro rfl
      obtain ⟨hd, -, -⟩ := fetchInstr_eq_ok hj
      exact hget ▸ hd
    · rw [fetchInstr_param hj hlen, ← hk, hget]

/-- Settles O35: the table, row by row, decides whether the step takes a fault or commits. -/
theorem stepReportsTheFirstFaultOfThePriorityTable : Obligations.StepReportsTheFirstFaultOfThePriorityTable := by
  intro s hs
  refine ⟨fun r hr => step_of_fails hs ((decides_priorityTable s).fails hr), fun hnone => ?_⟩
  · obtain ⟨i, t, hi, hcommit⟩ := (decides_priorityTable s).commits hnone
    obtain ⟨hkeep, -⟩ := hcommit.keeps_fault
    exact ⟨t, by rw [step_of_running hs, hi]; exact exec_of_commits hcommit, hkeep.trans hs.2⟩

/-- Settles O36: the table's rows, and `faultOfCode` as the inverse that makes the codes different. -/
theorem faultCodesAreTheTables : Obligations.FaultCodesAreTheTables :=
  ⟨rfl, rfl, rfl, rfl, rfl, rfl, faultOfCode_faultCode.injective⟩

end Sys2Proof
end
